-- ==== Sys2Proof/Word.lean ====
section
/-! DEFINITION. The words of the block: bits, bytes, symbols and command words (spec/00_scope.md R6,
spec/30_encoding.md R50, R57). -/

namespace Sys2Proof

/-- A bit, 0 or 1 (R6). -/
abbrev Bit := BitVec 1

/-- A byte, 0x00 to 0xFF; bit 7 is its most significant bit (R6). -/
abbrev Byte := BitVec 8

/-- The 9-bit value of a symbol: bit 8 the control bit, bits 7 to 0 the payload (R50). -/
abbrev SymbolValue := BitVec 9

/-- The 11-bit command word of the block's port (R57). -/
abbrev CommandWord := BitVec 11

/-- A symbol `(c, d)`: a control bit and a payload byte. All 512 values are legal (R50). -/
structure Symbol where
  /-- The control bit. -/
  c : Bit
  /-- The payload byte. -/
  d : Byte
deriving DecidableEq, Repr

end Sys2Proof
end

