-- ==== Sys2Proof/Config.lean ====
section
/-! DEFINITION. What an implementation or the environment fixes: the filler symbol, the
parameter TERR, the transport's answers, and the capacity that the reset state names (spec/00_scope.md R5).
The four sizes of R5 (9 bits a symbol, 8 bits a byte, 8 symbols and 9 bytes a group) stand as numerals. -/

namespace Sys2Proof.Config

/-- The filler symbol `(0, 0x00)`, a constant of the block (R5, R55). -/
def fill : Symbol := ⟨0, 0x00⟩

/-- DESIGN CHOICE (entry 3), safe: which numbers besides 0 name an error value of the transport that the
machine is attached to. It has no body: nothing is provable of it. -/
opaque isErrorCode : Nat → Bool

/-- DESIGN CHOICE (entry 3), safe: the type TERR at which the host's interface takes the model. The state and
every operation are defined for any TERR (R5, R8, D11, U2); the interface asks for one type of states, and this
one is open: the numbers that `isErrorCode` picks, and 0, so that it is not empty. -/
structure TErr where
  /-- The number that names the value. -/
  code : Nat
  /-- The number names an error value. -/
  isCode : (code == 0 || isErrorCode code) = true
deriving DecidableEq, Repr

/-- The one error value that every TERR of this form has. -/
def TErr.first : TErr := ⟨0, rfl⟩

/-- What the transport answers to one `Send` (R61, R142): `ok`, or `err(e)` with `e` in TERR. -/
inductive Answer (TERR : Type := TErr) where
  | ok
  | err (e : TERR)
deriving DecidableEq, Repr, Inhabited

/-- What one `Send` meets: an answer, or a transport that never answers
(spec/93_implementation_defined.md U3). -/
inductive Reply (TERR : Type := TErr) where
  | answers (a : Answer TERR)
  | silent
deriving DecidableEq, Repr

/-- DESIGN CHOICE (entry 4), safe: the answer of a transport whose reply is not already fixed in the
state is a free value of the draw's number and of the frame (R143, D11). It has no body: nothing is
provable of it but that it is some answer. -/
opaque transportAnswer {TERR : Type} : Nat → List Byte → Answer TERR

/-- DESIGN CHOICE (entry 2), unsafe for a claim that starts at `State.reset`: the capacity that the
reset state names. The spec gives none (R5, D8, N2); every other state has its own. 18 is the least
capacity at which the source's scenarios of two groups fit (R5). -/
def resetCapacity : Nat := 18

end Sys2Proof.Config
end

