-- ==== Sys2Proof/Syntax.lean ====
section
/-! DEFINITION. The block's operations, one constructor per row of spec/opcode_table.json
(spec/30_encoding.md R58), and the pseudo-operations of the listings (R62). -/

namespace Sys2Proof

/-- One operation of the block. Bits 8 to 0 of FLUSH, RESET and the reserved code are ignored (R57, R59),
so those operations have no operand. -/
inductive Instr where
  /-- PACK c, d (R71). -/
  | pack (c : Bit) (d : Byte)
  /-- FLUSH (R86). -/
  | flush
  /-- RESET (R118). -/
  | reset
  /-- The reserved code `op = 0b11`, row RESERVED (R59). -/
  | reserved
deriving DecidableEq, Repr

/-- The pseudo-operation CMD d, which is PACK 0, d (R62). -/
def pseudoCmd (d : Byte) : Instr := .pack 0 d

/-- The pseudo-operation DAT d, which is PACK 1, d (R62). -/
def pseudoDat (d : Byte) : Instr := .pack 1 d

/-- The pseudo-operation FILL, which is PACK 0, 0x00 (R62). -/
def pseudoFill : Instr := .pack Config.fill.c Config.fill.d

/-- The PACK of a symbol. -/
def packOf (x : Symbol) : Instr := .pack x.c x.d

end Sys2Proof
end

