-- ==== Sys2Proof/WellFormed.lean ====
section
/-! DEFINITION. Well-formedness: of an operation (every one is, spec/30_encoding.md R50, R59), and of a
number presented as a command word (R57, R63). -/

namespace Sys2Proof

/-- Every operand of every operation is legal: "All 512 values are legal symbols" (R50), and the other
operations have no operand. -/
def Instr.wellFormed : Instr → Bool
  | .pack _ _ => true
  | .flush => true
  | .reset => true
  | .reserved => true

/-- A number is a command word exactly when it fits 11 bits: "every command is one 11-bit word" (R63). -/
def wellFormedWord (w : Nat) : Bool := decide (w < 2 ^ 11)

end Sys2Proof
end

