-- ==== Sys2Proof/Decode.lean ====
section
/-! DEFINITION. The decoder of command words and, after it, the encoder (spec/30_encoding.md R57 to R59,
R63). Both are written from the table of R58. -/

namespace Sys2Proof

/-- The mask of every row of R58: the operation code in bits 10 to 9. -/
def opMask : CommandWord := 0x600#11

/-- The match value of PACK (R58). -/
def packMatch : CommandWord := 0x000#11

/-- The match value of FLUSH (R58). -/
def flushMatch : CommandWord := 0x200#11

/-- The match value of RESET (R58). -/
def resetMatch : CommandWord := 0x400#11

/-- The match value of the reserved code (R58). -/
def reservedMatch : CommandWord := 0x600#11

/-- "A word `w` selects the row whose `w & mask == match`" (R58). -/
def selectsRow (w rowMatch : CommandWord) : Bool := decide (w &&& opMask = rowMatch)

/-- Bit 8 of a command word, the control bit of PACK (R57). -/
def controlField (w : CommandWord) : Bit := w.extractLsb' 8 1

/-- Bits 7 to 0 of a command word, the payload of PACK (R57). -/
def payloadField (w : CommandWord) : Byte := w.extractLsb' 0 8

/-- The operation of a command word. Total: "every 11-bit word decodes to exactly one row of rule R58"
(R59); what selects none of the first three rows is the reserved code. -/
def decode (w : CommandWord) : Instr :=
  if selectsRow w packMatch then .pack (controlField w) (payloadField w)
  else if selectsRow w flushMatch then .flush
  else if selectsRow w resetMatch then .reset
  else .reserved

/-- Why a number is no command. -/
inductive DecodeError where
  /-- The number does not fit the 11 bits of a command word; no longer form exists (R63). Safe. -/
  | widerThanCommandWord
deriving DecidableEq, Repr

/-- The decoder on any number, rejecting by name what is no command word (R63). -/
def decodeNumber (w : Nat) : Except DecodeError Instr :=
  if wellFormedWord w then .ok (decode (BitVec.ofNat 11 w)) else .error .widerThanCommandWord

/-- The instruction that the decoder reads from the `nbits` bits `w`, bit 0 the least significant bit of
the one word. -/
def decodeTableWord (nbits w : Nat) : Option Instr :=
  match decodeNumber (w % 2 ^ nbits) with
  | .ok i => some i
  | .error _ => none

/-- The canonical command word of an operation: ignored bits zero (R58). -/
def encode : Instr → CommandWord
  | .pack c d => (c.setWidth 11 <<< 8) ||| d.setWidth 11
  | .flush => flushMatch
  | .reset => resetMatch
  | .reserved => reservedMatch

end Sys2Proof
end

