-- ==== Sys2Proof/Machine/State.lean ====
section
/-! DEFINITION. The machine's state as plain data (spec/10_state.md R10 to R22), the response record
(spec/30_encoding.md R60), the reasons a step can stop, and the state after reset (R21). -/

namespace Sys2Proof.Machine

open Sys2Proof.Config (TErr Answer Reply)

/-- The `status` field of a response (R60, R130). -/
inductive Status where
  | ok
  | bufferOverflow
  | transportError
  | illegalCommand
deriving DecidableEq, Repr

/-- The response record that every operation returns (R60). `terr` is absent unless the status is
TransportError. -/
structure Response (TERR : Type := TErr) where
  status : Status
  bytesSent : Nat
  terr : Option TERR
deriving DecidableEq, Repr

/-- The three errors of the block (R130), with what each records. -/
inductive Error (TERR : Type := TErr) where
  | bufferOverflow
  | transportError (e : TERR)
  | illegalCommand
deriving DecidableEq, Repr

/-- One entry of a run's record (R9): an operation with its result, or a hardware reset between two
operations (R150). -/
inductive Event (TERR : Type := TErr) where
  | returned (i : Instr) (r : Response TERR)
  | hardReset
deriving DecidableEq, Repr

/-- What the host's side of the port can do to the block between operations: issue a command word (R57)
or, for the platform, reset the block (R150). -/
inductive HostAction where
  | command (w : CommandWord)
  | hardReset
deriving DecidableEq, Repr

/-- The bytes of the buffer by index (R30), in one canonical form: indices strictly rising. An index with
no pair is not allocated and has no value (R20, R36; entry 6). -/
abbrev Memory := List Host.Cell

/-- One packer instance (R10), with the agents around it and the record of its run. The first four fields
are the block's; the others are the model's own. The transport's type of error values, TERR, is an argument
(R5, R8); where none is written it is the one that the host's interface takes (entry 3). -/
structure State (TERR : Type := TErr) where
  /-- The count of symbols packed since the last reset of the count (R11). -/
  n : Nat
  /-- The spec's `buf`: the allocated bytes of the buffer (R13). -/
  mem : Memory
  /-- The sticky overflow flag (R16). -/
  ovf : Bool
  /-- The capacity `CAP` in bytes, constant for the life of the instance (R10). -/
  cap : Nat
  /-- The model's own: what the host has still to issue, next first (R8; entry 1). -/
  host : List HostAction
  /-- The model's own: the transport's replies that are already fixed, next first (R8; entry 4). -/
  transport : List (Reply TERR)
  /-- The model's own: how many answers were drawn from the free value (entry 4). -/
  draws : Nat
  /-- The model's own: the operations with their results, in issue order (R9; entry 10). -/
  trace : List (Event TERR)
  /-- The model's own: the frames handed to the transport with its answers, in order (R9; entry 10). -/
  sent : List (List Byte × Answer TERR)
deriving DecidableEq, Repr

/-- Why a step stops with a fault. None of these is an error of the block: BufferOverflow, TransportError
and IllegalCommand are results and leave a next state (R130). -/
inductive Fault where
  /-- Raised by FLUSH when the transport never answers its `Send`: "stuck" (U3, R143; entry 5). Safe. -/
  | transportSilent
  /-- Raised by a buffer access at an index `CAP` or above, which does not exist (R30, R40). Safe; no
  operation reaches it. -/
  | outsideBuffer
  /-- Raised by a read or write of a cell that was not allocated (R20, R36; entry 6). Safe; no
  well-formed state reaches it. -/
  | unallocatedCell
deriving DecidableEq, Repr

/-- Why a step is refused. -/
inductive Refusal where
  /-- Raised by an arm of `exec` whose instruction has no meaning yet. Safe. No arm raises it. -/
  | notModelled (mnemonic : String)
deriving DecidableEq, Repr

/-- Construction, `new(capacityBytes)`: every capacity is accepted and the state is the initial state
(R21, R117, R120). The agents have nothing pending and the run's record is empty (entries 1, 4, 10). -/
def State.construct (capacity : Nat) (TERR : Type := TErr) : State TERR where
  n := 0
  mem := []
  ovf := false
  cap := capacity
  host := []
  transport := []
  draws := 0
  trace := []
  sent := []

/-- The machine right after reset (R21, R150). DESIGN CHOICE (entry 2): the capacity. -/
def State.reset : State := State.construct Config.resetCapacity

end Sys2Proof.Machine
end

