-- ==== Sys2Proof/Machine/Flags.lean ====
section
/-! DEFINITION. The views of the state (spec/10_state.md R14, R17), the capacities computed from the count
(spec/40_pack.md R73, spec/41_flush.md R87, R88), and the codes of the status field (spec/60_exceptions.md
R130). -/

namespace Sys2Proof.Machine

variable {TERR : Type}

/-- The phase: position within the current group of 8 symbols (R11). -/
def phase (n : Nat) : Nat := n % 8

/-- The number of allocated bytes, `ceil(9 * n / 8)`, a view of the count (R14). -/
def lenOf (n : Nat) : Nat := (9 * n + 7) / 8

/-- How many filler symbols a FLUSH needs, `(8 - p) mod 8` (R87). -/
def padding (n : Nat) : Nat := (8 - phase n) % 8

/-- The padded length `L = 9 * ((n + pad) div 8)`, which is `9 * ceil(n / 8)` (R86). -/
def paddedLen (n : Nat) : Nat := 9 * ((n + padding n) / 8)

/-- The largest number of symbols a transaction can hold, `floor(8 * CAP / 9)` (R73). -/
def nmax (cap : Nat) : Nat := 8 * cap / 9

/-- The three states of the block's state machine (spec/43_lifecycle.md R115). -/
inductive Mode where
  | empty
  | accumulating
  | faulted
deriving DecidableEq, Repr

/-- The state of the state machine, a function of the stored state (R17, R115). -/
def modeOf (s : State TERR) : Mode :=
  if s.ovf then .faulted else if phase s.n = 0 then .empty else .accumulating

/-- The read-only status view (R17). -/
structure StatusView where
  phase : Nat
  len : Nat
  aligned : Bool
  empty : Bool
  ovf : Bool
  state : Mode
deriving DecidableEq, Repr

/-- Reading the status view; it has no effect (R17; entry 16). -/
def statusView (s : State TERR) : StatusView where
  phase := phase s.n
  len := lenOf s.n
  aligned := decide (phase s.n = 0)
  empty := decide (s.n = 0)
  ovf := s.ovf
  state := modeOf s

/-- The 2-bit code of a status (R60, R130). -/
def statusCode : Status → BitVec 2
  | .ok => 0b00#2
  | .bufferOverflow => 0b01#2
  | .transportError => 0b10#2
  | .illegalCommand => 0b11#2

end Sys2Proof.Machine
end

