-- ==== Sys2Proof/Machine/Operands.lean ====
section
/-! DEFINITION. The bit cursor (spec/10_state.md R12), the 9-bit value of a symbol (spec/30_encoding.md R50)
and the assembly of PACK's operand in its 16-bit window (R56), with the table of the two bytes by offset
that the spec gives beside the formula (R56, spec/40_pack.md R76). -/

namespace Sys2Proof.Machine

/-- The bit cursor `cur = 9 * n` (R12). -/
def cursor (n : Nat) : Nat := 9 * n

/-- The byte index `i = cur div 8` of the cursor (R12). -/
def byteIndex (n : Nat) : Nat := cursor n / 8

/-- The bit offset `o = cur mod 8` of the cursor (R12). -/
def bitOffset (n : Nat) : Nat := cursor n % 8

/-- `sym = (c << 8) | d` (R50, R56). -/
def symbolValue (x : Symbol) : SymbolValue := (x.c.setWidth 9 <<< 8) ||| x.d.setWidth 9

/-- The symbol of a 9-bit value: `c = sym[8]`, `d = sym[7:0]` (R6, R50). -/
def symbolOfValue (v : SymbolValue) : Symbol := ⟨v.extractLsb' 8 1, v.extractLsb' 0 8⟩

/-- The 16-bit window `W = zext_16(sym) << (7 - o)` (R56). -/
def window (o : Nat) (x : Symbol) : BitVec 16 := (symbolValue x).setWidth 16 <<< (7 - o)

/-- `W[15:8]`, which goes to `buf[i]` (R56). -/
def windowHigh (o : Nat) (x : Symbol) : Byte := (window o x).extractLsb' 8 8

/-- `W[7:0]`, which goes to `buf[i + 1]` (R56). -/
def windowLow (o : Nat) (x : Symbol) : Byte := (window o x).extractLsb' 0 8

/-- The table of R56, middle column: what is ORed into `buf[i]` at each offset. The machine uses the
formula; this is the spec's table to hold it against. -/
def tableHigh (o : Nat) (c : Bit) (d : Byte) : Byte :=
  let c8 : Byte := c.setWidth 8
  match o with
  | 0 => (c8 <<< 7) ||| (d >>> 1)
  | 1 => (c8 <<< 6) ||| (d >>> 2)
  | 2 => (c8 <<< 5) ||| (d >>> 3)
  | 3 => (c8 <<< 4) ||| (d >>> 4)
  | 4 => (c8 <<< 3) ||| (d >>> 5)
  | 5 => (c8 <<< 2) ||| (d >>> 6)
  | 6 => (c8 <<< 1) ||| (d >>> 7)
  | _ => c8

/-- The table of R56, right column: what is written to `buf[i + 1]` at each offset. -/
def tableLow (o : Nat) (d : Byte) : Byte :=
  match o with
  | 0 => (d &&& 0x01) <<< 7
  | 1 => (d &&& 0x03) <<< 6
  | 2 => (d &&& 0x07) <<< 5
  | 3 => (d &&& 0x0F) <<< 4
  | 4 => (d &&& 0x1F) <<< 3
  | 5 => (d &&& 0x3F) <<< 2
  | 6 => (d &&& 0x7F) <<< 1
  | _ => d

end Sys2Proof.Machine
end

