-- ==== Sys2Proof/Machine/Ops.lean ====
section
/-! DEFINITION. The named operations over the buffer, the response, the errors and the transport: the
primitives MemAlloc, MemRead, MemWrite, raise, return and Send of spec/00_scope.md R7, what every reset
does (spec/70_reset_and_hazards.md R150), and the presentation of a command at the port. -/

namespace Sys2Proof.Machine

open Sys2Proof.Config (Answer)

variable {TERR : Type}

/-! ## The buffer (spec/20_memory.md) -/

/-- What an index with no pair reads as: no value, the cell is not allocated (R20, R36; entry 6). -/
def Memory.unlisted : Option Byte := none

/-- The byte at an index, or what an unlisted index reads as. -/
def Memory.read : Memory → Nat → Option Byte
  | [], _ => Memory.unlisted
  | (b, v) :: m, a => if a = b then some v else Memory.read m a

/-- The memory with byte `v` at index `a`, in canonical form. -/
def Memory.write : Memory → Nat → Byte → Memory
  | [], a, v => [(a, v)]
  | (b, w) :: m, a, v =>
    if a < b then (a, v) :: (b, w) :: m
    else if a = b then (a, v) :: m
    else (b, w) :: Memory.write m a v

/-- The canonical form: indices strictly rising, and no entry equal to what an unlisted index reads as. -/
abbrev Memory.wf (m : Memory) : Prop :=
  m.Pairwise (fun x y => x.1 < y.1) ∧ ∀ x ∈ m, some x.2 ≠ Memory.unlisted

/-- A list of bytes laid out from index `a` on. -/
def Memory.ofBytesFrom (a : Nat) : List Byte → Memory
  | [] => []
  | v :: b => (a, v) :: Memory.ofBytesFrom (a + 1) b

/-- The buffer that holds exactly the bytes of a list, at indices 0 on (R13). -/
def Memory.ofBytes (b : List Byte) : Memory := Memory.ofBytesFrom 0 b

/-- The bytes of a buffer in ascending index order (R32). -/
def Memory.bytes (m : Memory) : List Byte := m.map Prod.snd

/-- Stream bit `k`: bit `7 - (k mod 8)` of byte `k div 8`, or none where that byte is not allocated
(R31). -/
def Memory.streamBit (m : Memory) (k : Nat) : Option Bool :=
  (Memory.read m (k / 8)).map fun b => b.getLsbD (7 - k % 8)

/-- The state with another buffer. -/
def State.setMem (s : State TERR) (m : Memory) : State TERR := { s with mem := m }

/-- `MemAlloc(i)`: byte `i` is allocated with the value 0x00 (R7, R36). -/
def memAlloc (i : Nat) (s : State TERR) : Except Fault (State TERR) :=
  if i < s.cap then .ok (s.setMem (Memory.write s.mem i 0x00)) else .error .outsideBuffer

/-- `MemRead(i, 1)` (R7, R39). -/
def memRead (i : Nat) (s : State TERR) : Except Fault Byte :=
  if i < s.cap then
    match Memory.read s.mem i with
    | some v => .ok v
    | none => .error .unallocatedCell
  else .error .outsideBuffer

/-- `MemWrite(i, 1, v)`, of an allocated byte (R7, R36). -/
def memWrite (i : Nat) (v : Byte) (s : State TERR) : Except Fault (State TERR) :=
  if i < s.cap then
    match Memory.read s.mem i with
    | some _ => .ok (s.setMem (Memory.write s.mem i v))
    | none => .error .unallocatedCell
  else .error .outsideBuffer

/-- `MemAlloc` of the `k` bytes from index `a` on, in ascending order (R86, R37). -/
def memAllocRange (a : Nat) : Nat → State TERR → Except Fault (State TERR)
  | 0, s => .ok s
  | k + 1, s => (memAlloc a s).bind (memAllocRange (a + 1) k)

/-- `MemRead` of the `k` bytes from index `a` on, in ascending order (R86, R37). -/
def memReadRange (a : Nat) : Nat → State TERR → Except Fault (List Byte)
  | 0, _ => .ok []
  | k + 1, s => (memRead a s).bind fun v => (memReadRange (a + 1) k s).map fun b => v :: b

/-- `buf <- empty` together with `n <- 0` (R86, R118): the transaction's count and bytes are gone. -/
def clearTransaction (s : State TERR) : State TERR := { s with n := 0, mem := [] }

/-! ## Responses and errors (spec/30_encoding.md R60, spec/60_exceptions.md R130 to R137) -/

/-- The response of a success that reports `k` bytes sent (R60). -/
def okResponse (k : Nat) : Response TERR := ⟨.ok, k, none⟩

/-- The response of an error: `bytes_sent` is 0, and only TransportError carries a `terr` (R60, R130). -/
def errorResponse : Error TERR → Response TERR
  | .bufferOverflow => ⟨.bufferOverflow, 0, none⟩
  | .transportError e => ⟨.transportError, 0, some e⟩
  | .illegalCommand => ⟨.illegalCommand, 0, none⟩

/-- `return`: the operation ends with its response, which the run's record takes (R7, R9). -/
def respond (i : Instr) (r : Response TERR) (s : State TERR) : State TERR :=
  { s with trace := s.trace ++ [.returned i r] }

/-- `raise E(info)`, taking an error: BufferOverflow sets `ovf`, the others write nothing, and the
operation ends with the error as its response: a next state (entry 13). Nothing is saved anywhere and control goes nowhere else
(R134). Going on after it (R137) restores nothing, so it has no operation of its own but RESET. -/
def raiseError (i : Instr) (e : Error TERR) (s : State TERR) : State TERR :=
  match e with
  | .bufferOverflow => respond i (errorResponse e) { s with ovf := true }
  | .transportError _ => respond i (errorResponse e) s
  | .illegalCommand => respond i (errorResponse e) s

/-- An outcome of a step from a state reached or a fault met. -/
def settle : Except Fault (State TERR) → Host.Outcome (State TERR) Fault Refusal
  | .ok s => .next s
  | .error f => .fault f

/-! ## The transport (spec/60_exceptions.md R142, R143) -/

/-- `Send(frame)`: the frame is handed over once and answered (R61, R91). A reply that is already fixed is
used first; where none is, the answer is a free value (entry 4); a silent transport leaves the FLUSH stuck
(U3; entry 5). -/
def send (frame : List Byte) (s : State TERR) : Except Fault (Answer TERR × State TERR) :=
  match s.transport with
  | .answers a :: rest => .ok (a, { s with transport := rest, sent := s.sent ++ [(frame, a)] })
  | .silent :: _ => .error .transportSilent
  | [] =>
    let a := Config.transportAnswer s.draws frame
    .ok (a, { s with draws := s.draws + 1, sent := s.sent ++ [(frame, a)] })

/-! ## Reset (spec/70_reset_and_hazards.md R150) -/

/-- What every reset does to the block: `n`, `buf` and `ovf` to their reset values, `CAP` kept (R21, R118,
R150). -/
def resetBlock (s : State TERR) : State TERR := { clearTransaction s with ovf := false }

/-- A hardware reset between two operations: the block is reset and nothing is returned to anybody, since
no operation was issued (R150, R152; entry 12). -/
def hardwareReset (s : State TERR) : State TERR :=
  { resetBlock s with trace := s.trace ++ [.hardReset] }

/-! ## The command port (spec/30_encoding.md R57, spec/20_memory.md R42) -/

/-- The host issues command word `w` next. -/
def issue (w : CommandWord) (s : State TERR) : State TERR := { s with host := .command w :: s.host }

/-- The host issues the number `w` next, read in `nbits` bits; what is no command word cannot be presented
at the port (R63), and then nothing is issued (entry 9). -/
def issueNumber (nbits w : Nat) (s : State TERR) : State TERR :=
  if wellFormedWord (w % 2 ^ nbits) then issue (BitVec.ofNat 11 (w % 2 ^ nbits)) s else s

/-- The state with the host's next action taken off its list. -/
def takeAction (s : State TERR) : State TERR := { s with host := s.host.tail }

end Sys2Proof.Machine
end

