-- ==== Sys2Proof/Machine/Flush.lean ====
section
/-! DEFINITION. The FLUSH operation, the Flush / Padding Controller (spec/41_flush.md). -/

namespace Sys2Proof.Machine

open Sys2Proof.Config (Answer)

variable {TERR : Type}

/-- Whether the padded buffer fits: `L ≤ CAP` (R88). -/
def flushFits (s : State TERR) : Bool := decide (paddedLen s.n ≤ s.cap)

/-- The frame: bytes `len` to `L - 1` are allocated as 0x00, then bytes 0 to `L - 1` are read in ascending
order (R86, R87, R37; closed form, entry 14). -/
def formFrame (s : State TERR) : Except Fault (List Byte) :=
  let len := lenOf s.n
  let L := paddedLen s.n
  (memAllocRange len (L - len) s).bind (memReadRange 0 L)

/-- How FLUSH ends once the transport has answered to a frame of `L` bytes (R92, R93). -/
def finishFlush (L : Nat) : Answer TERR → State TERR → State TERR
  | .ok, s => respond .flush (okResponse L) s
  | .err e, s => raiseError .flush (.transportError e) s

/-- The hand-off: the block is emptied, the frame is sent exactly once, and FLUSH ends with the
transport's answer (R86, R91 to R93; the moment of the reset is unobservable, entry 11). -/
def handOff (frame : List Byte) (s : State TERR) : Except Fault (State TERR) :=
  (send frame (clearTransaction s)).map fun r => finishFlush frame.length r.1 r.2

/-- FLUSH (R86), its checks in the order of R94. -/
def execFlush (s : State TERR) : Host.Outcome (State TERR) Fault Refusal :=
  if s.ovf then .next (raiseError .flush .bufferOverflow s)
  else if flushFits s then
    if paddedLen s.n = 0 then .next (respond .flush (okResponse 0) s)
    else settle ((formFrame s).bind fun frame => handOff frame s)
  else .next (raiseError .flush .bufferOverflow s)

end Sys2Proof.Machine
end

