-- ==== Sys2Proof/Machine/Lifecycle.lean ====
section
/-! DEFINITION. The RESET operation (spec/43_lifecycle.md R118) and the reserved code (spec/30_encoding.md
R59). -/

namespace Sys2Proof.Machine

variable {TERR : Type}

/-- RESET (R118): accepted in every state, always Ok, nothing is handed over. -/
def execReset (s : State TERR) : Host.Outcome (State TERR) Fault Refusal :=
  .next (respond .reset (okResponse 0) (resetBlock s))

/-- The reserved code (R59, R133): IllegalCommand in every state, and no state of the block changes (entry 13). -/
def execReserved (s : State TERR) : Host.Outcome (State TERR) Fault Refusal :=
  .next (raiseError .reserved .illegalCommand s)

end Sys2Proof.Machine
end

