-- ==== Sys2Proof/Machine/Pack.lean ====
section
/-! DEFINITION. The PACK operation, the Bit Packer (spec/40_pack.md). -/

namespace Sys2Proof.Machine

variable {TERR : Type}

/-- Whether one more symbol fits: `i + 2 ≤ CAP` (R73). -/
def packFits (s : State TERR) : Bool := decide (byteIndex s.n + 2 ≤ s.cap)

/-- The byte at the cursor takes the symbol's first bits: a new byte at offset 0, else ORed into the last
byte (R71). -/
def writeFirstByte (x : Symbol) (s : State TERR) : Except Fault (State TERR) :=
  let i := byteIndex s.n
  let o := bitOffset s.n
  if o = 0 then (memAlloc i s).bind (memWrite i (windowHigh o x))
  else (memRead i s).bind fun old => memWrite i (old ||| windowHigh o x) s

/-- The next byte is new and takes the symbol's last bits (R71). -/
def writeSecondByte (x : Symbol) (s : State TERR) : Except Fault (State TERR) :=
  let i := byteIndex s.n
  (memAlloc (i + 1) s).bind (memWrite (i + 1) (windowLow (bitOffset s.n) x))

/-- The buffer part of PACK and the count (R71): exactly the two bytes at `i` and `i + 1` (R35). -/
def appendSymbol (x : Symbol) (s : State TERR) : Except Fault (State TERR) :=
  ((writeFirstByte x s).bind (writeSecondByte x)).map fun t => { t with n := t.n + 1 }

/-- PACK c, d (R71). Both checks come before any buffer access (R73, R74). -/
def execPack (c : Bit) (d : Byte) (s : State TERR) : Host.Outcome (State TERR) Fault Refusal :=
  if s.ovf then .next (raiseError (.pack c d) .bufferOverflow s)
  else if packFits s then
    settle ((appendSymbol ⟨c, d⟩ s).map (respond (.pack c d) (okResponse 0)))
  else .next (raiseError (.pack c d) .bufferOverflow s)

end Sys2Proof.Machine
end

