-- ==== Sys2Proof/Machine/Dispatch.lean ====
section
/-! DEFINITION. What each operation does: one arm per constructor of Instr. -/

namespace Sys2Proof.Machine

def exec (i : Instr) (s : State) : Host.Outcome State Fault Refusal :=
  match i with
  | .pack c d => Sys2Proof.Machine.execPack c d s
  | .flush => Sys2Proof.Machine.execFlush s
  | .reset => Sys2Proof.Machine.execReset s
  | .reserved => Sys2Proof.Machine.execReserved s

end Sys2Proof.Machine
end

