-- ==== Sys2Proof/Machine/Operation.lean ====
section
/-! DEFINITION. The step relation with TERR as its argument (spec/00_scope.md R5, R8): the operations over any
type of error values, and the step that carries one out. The host's interface takes it at one type
(Machine/Dispatch.lean, Machine/Step.lean; entry 3). -/

namespace Sys2Proof.Machine

variable {TERR : Type}

/-- The meaning of an operation, for any TERR (R5, R8). -/
def operate (i : Instr) (s : State TERR) : Host.Outcome (State TERR) Fault Refusal :=
  match i with
  | .pack c d => execPack c d s
  | .flush => execFlush s
  | .reset => execReset s
  | .reserved => execReserved s

/-- One atomic step per operation (R8), where `run` is what an operation does. A block to which nothing was
issued stays as it is: it takes no step on its own (R8; entry 1). One instance, one caller, no time (entries 15
and 17). -/
def stepWith (run : Instr → State TERR → Host.Outcome (State TERR) Fault Refusal) (s : State TERR) :
    Host.Outcome (State TERR) Fault Refusal :=
  match s.host with
  | [] => .next s
  | .hardReset :: _ => .next (hardwareReset (takeAction s))
  | .command w :: _ => run (decode w) (takeAction s)

/-- The step relation, for any TERR (R5, R8). -/
def stepAt (s : State TERR) : Host.Outcome (State TERR) Fault Refusal := stepWith operate s

end Sys2Proof.Machine
end

