-- ==== Sys2Proof/Machine/Step.lean ====
section
/-! DEFINITION. One step: the next action of the host is taken and carried out, whole (spec/00_scope.md R8,
spec/20_memory.md R42, spec/60_exceptions.md R139). -/

namespace Sys2Proof.Machine

/-- The step of the machine behind the host's interface: `stepWith` of `exec`, which is the step relation
`stepAt` at the interface's TERR (R8; entries 1 and 3). -/
def step (s : State) : Host.Outcome State Fault Refusal := stepWith exec s

/-- The state in which the host issues, as its very next action, the command word that is the number `w`
read in `nbits` bits (R57; entry 9). Nothing else changes. -/
def State.withFetchWord (s : State) (nbits w : Nat) : State := issueNumber nbits w s

end Sys2Proof.Machine
end

