-- ==== Sys2Proof/Machine/GroupEncoder.lean ====
section
/-! DEFINITION. The block's data path as pure functions (spec/42_group_encoder.md): ENCODE8, DECODE8, ENCODE
and DECODE. ENCODE is written from the bit order of spec/20_memory.md R31 and spec/30_encoding.md R51, R52,
not from PACK, so that PACK can be held against it. The block has no decoder (R102): DECODE8 and DECODE are
specification functions. -/

namespace Sys2Proof.Machine

/-- The control bit of symbol `k` of a group, as a byte. -/
def groupControl (g : Vector Symbol 8) (k : Fin 8) : Byte := g[k].c.setWidth 8

/-- ENCODE8, byte by byte (R101): 8 symbols to 9 bytes. -/
def encode8 (g : Vector Symbol 8) : Vector Byte 9 :=
  #v[(groupControl g 0 <<< 7) ||| (g[0].d >>> 1),
     ((g[0].d &&& 0x01) <<< 7) ||| (groupControl g 1 <<< 6) ||| (g[1].d >>> 2),
     ((g[1].d &&& 0x03) <<< 6) ||| (groupControl g 2 <<< 5) ||| (g[2].d >>> 3),
     ((g[2].d &&& 0x07) <<< 5) ||| (groupControl g 3 <<< 4) ||| (g[3].d >>> 4),
     ((g[3].d &&& 0x0F) <<< 4) ||| (groupControl g 4 <<< 3) ||| (g[4].d >>> 5),
     ((g[4].d &&& 0x1F) <<< 3) ||| (groupControl g 5 <<< 2) ||| (g[5].d >>> 6),
     ((g[5].d &&& 0x3F) <<< 2) ||| (groupControl g 6 <<< 1) ||| (g[6].d >>> 7),
     ((g[6].d &&& 0x7F) <<< 1) ||| groupControl g 7,
     g[7].d]

/-- The lowest bit of a byte, as a control bit. -/
def lowestBit (b : Byte) : Bit := b.extractLsb' 0 1

/-- DECODE8, symbol by symbol (R102): 9 bytes to 8 symbols. -/
def decode8 (b : Vector Byte 9) : Vector Symbol 8 :=
  #v[⟨lowestBit (b[0] >>> 7), ((b[0] &&& 0x7F) <<< 1) ||| (b[1] >>> 7)⟩,
     ⟨lowestBit (b[1] >>> 6), ((b[1] &&& 0x3F) <<< 2) ||| (b[2] >>> 6)⟩,
     ⟨lowestBit (b[2] >>> 5), ((b[2] &&& 0x1F) <<< 3) ||| (b[3] >>> 5)⟩,
     ⟨lowestBit (b[3] >>> 4), ((b[3] &&& 0x0F) <<< 4) ||| (b[4] >>> 4)⟩,
     ⟨lowestBit (b[4] >>> 3), ((b[4] &&& 0x07) <<< 5) ||| (b[5] >>> 3)⟩,
     ⟨lowestBit (b[5] >>> 2), ((b[5] &&& 0x03) <<< 6) ||| (b[6] >>> 2)⟩,
     ⟨lowestBit (b[6] >>> 1), ((b[6] &&& 0x01) <<< 7) ||| (b[7] >>> 1)⟩,
     ⟨lowestBit b[7], b[8]⟩]

/-- Bit `k` of the stream of a list of symbols: bit `8 - j` of symbol `k div 9` with `j = k mod 9`, and 0
beyond the stream's end (R51, R104). -/
def symbolBit (s : List Symbol) (k : Nat) : Bool :=
  match s[k / 9]? with
  | some x => (symbolValue x).getLsbD (8 - k % 9)
  | none => false

/-- The byte whose first bit (bit 7) is `f 0` and whose last bit (bit 0) is `f 7` (R31). -/
def byteOfBits (f : Nat → Bool) : Byte := BitVec.ofFnLE fun i : Fin 8 => f (7 - i)

/-- Byte `j` of the packed form of a stream: stream bits `8j` to `8j + 7`, the first at bit 7 (R52,
R104). -/
def packedByte (s : List Symbol) (j : Nat) : Byte := byteOfBits fun t => symbolBit s (8 * j + t)

/-- ENCODE: the packed form of the stream of any list of symbols, `ceil(9 * N / 8)` bytes (R104). -/
def encodeStream (s : List Symbol) : List Byte := (List.range (lenOf s.length)).map (packedByte s)

/-- Symbol `k` of a list of bytes: bits `[15 - o : 7 - o]` of `(b[i] << 8) | b[i + 1]` (R105). -/
def symbolAt (b : List Byte) (k : Nat) : Symbol :=
  let pair : BitVec 16 :=
    ((b.getD (byteIndex k) 0).setWidth 16 <<< 8) ||| (b.getD (byteIndex k + 1) 0).setWidth 16
  symbolOfValue (pair.extractLsb' (7 - bitOffset k) 9)

/-- DECODE(b, N): the first `N` symbols of a list of at least `ceil(9 * N / 8)` bytes (R105). -/
def decodeStream (b : List Byte) (count : Nat) : List Symbol := (List.range count).map (symbolAt b)

/-- A transaction's symbols followed by the filler symbols of its FLUSH (R54, R87). -/
def withFillers (s : List Symbol) : List Symbol := s ++ List.replicate (padding s.length) Config.fill

end Sys2Proof.Machine
end

