-- ==== Sys2Proof/Safety.lean ====
section
/-! DEFINITION. The terms in which claims are stated: what a buffer holds, the well-formedness of a state
(spec/10_state.md R23), what a run's record says (spec/00_scope.md R9), legal frames (spec/30_encoding.md
R54), sequences of operations, and the response that the priority of conditions gives (spec/60_exceptions.md
R136). -/

namespace Sys2Proof.Machine

open Sys2Proof.Config (Answer Reply)

/-! ## Well-formed states -/

/-- The buffer holds exactly the symbols `x`: `buf = ENCODE(x)` and `n = |x|` (R13). -/
def Holds (s : State) (x : List Symbol) : Prop :=
  x.length = s.n ∧ s.mem = Memory.ofBytes (encodeStream x)

/-- The well-formedness predicate `WF` (R23). That `ovf` is 0 or 1 is its type. -/
def WF (s : State) : Prop :=
  s.n ≤ nmax s.cap ∧ s.mem.length = lenOf s.n ∧ lenOf s.n ≤ s.cap ∧ ∃ x, Holds s x

/-- The block is in the reset state, apart from its capacity (R21, R117, R150). -/
def Initial (s : State) : Prop :=
  s.n = 0 ∧ s.mem = [] ∧ s.ovf = false

/-- The buffer is in canonical form and no allocated byte lies at index `CAP` or above (R30, R40). -/
def BufferInBounds (s : State) : Prop :=
  Memory.wf s.mem ∧ ∀ x ∈ s.mem, x.1 < s.cap

/-- A frame as the transport may be handed it: a positive multiple of 9 bytes, at most
`9 * floor(CAP / 9)` (R54, R142). -/
def LegalFrame (cap : Nat) (frame : List Byte) : Prop :=
  0 < frame.length ∧ frame.length % 9 = 0 ∧ frame.length ≤ 9 * (cap / 9)

/-- Every frame handed over so far is legal. -/
def FramesLegal (s : State) : Prop := ∀ p ∈ s.sent, LegalFrame s.cap p.1

/-! ## What a run's record says -/

/-- What the record of a run tells of the block: the symbols packed since the last reset of the count,
whether an operation since the last reset overflowed, and the frames handed over with their answers. -/
structure Ledger where
  pending : List Symbol
  overflowed : Bool
  sends : List (List Byte × Answer)
deriving DecidableEq, Repr

/-- The transaction is handed over and answered (R91, R119). -/
def Ledger.handOver (g : Ledger) (a : Answer) : Ledger :=
  { g with pending := [], sends := g.sends ++ [(encodeStream (withFillers g.pending), a)] }

/-- The ledger after one more entry of the record. -/
def Ledger.add (g : Ledger) : Event → Ledger
  | .hardReset => { g with pending := [], overflowed := false }
  | .returned (.pack c d) r =>
    match r.status with
    | .ok => { g with pending := g.pending ++ [⟨c, d⟩] }
    | .bufferOverflow => { g with overflowed := true }
    | .transportError => g
    | .illegalCommand => g
  | .returned .flush r =>
    match r.status with
    | .ok => if r.bytesSent = 0 then g else g.handOver .ok
    | .bufferOverflow => { g with overflowed := true }
    | .transportError =>
      match r.terr with
      | some e => g.handOver (.err e)
      | none => g
    | .illegalCommand => g
  | .returned .reset _ => { g with pending := [], overflowed := false }
  | .returned .reserved _ => g

/-- The ledger of a run's record. -/
def ledger (t : List Event) : Ledger := t.foldl Ledger.add ⟨[], false, []⟩

/-- The state of the block and the frames it has sent are what the run's record says: the buffer is the
encoding of the symbols packed since the last reset of the count, `ovf` is set exactly when some operation
since the last reset returned BufferOverflow, and every frame is the encoding of one transaction's symbols
and its fillers (R22, R23, R95, R119). -/
def Explained (s : State) : Prop :=
  Holds s (ledger s.trace).pending ∧ s.ovf = (ledger s.trace).overflowed ∧
    s.sent = (ledger s.trace).sends ∧ s.n ≤ nmax s.cap

/-! ## The transport's next answer -/

/-- The transport answers the next `Send`: it is not silent (R143, U3). -/
def TransportAnswers (s : State) : Prop := s.transport.head? ≠ some .silent

/-- The answer that the next `Send`, of this frame, gets from a transport that is not silent. -/
def nextAnswer (s : State) (frame : List Byte) : Answer :=
  match s.transport with
  | .answers a :: _ => a
  | _ => Config.transportAnswer s.draws frame

/-- The state after one `Send` of `frame` as far as the transport and the record are concerned. -/
def afterSend (s : State) (frame : List Byte) : State :=
  { s with
    transport := s.transport.tail
    draws := if s.transport = [] then s.draws + 1 else s.draws
    sent := s.sent ++ [(frame, nextAnswer s frame)] }

/-- The response of a FLUSH that handed over `L` bytes and was answered (R60, R92, R93). -/
def flushResponse (L : Nat) : Answer → Response
  | .ok => ⟨.ok, L, none⟩
  | .err e => ⟨.transportError, 0, some e⟩

/-- The response of every BufferOverflow (R60). -/
def overflowResponse : Response := ⟨.bufferOverflow, 0, none⟩

/-- Operation `i` from `s` ends in `t` with response `r`, which is all that joins the record. -/
def Returns (i : Instr) (s t : State) (r : Response) : Prop :=
  exec i s = .next t ∧ t.trace = s.trace ++ [.returned i r]

/-- The state after an operation that only returns response `r`. -/
def withResponse (i : Instr) (r : Response) (s : State) : State :=
  { s with trace := s.trace ++ [.returned i r] }

/-! ## Sequences of operations -/

/-- Operations carried out one after the other, stopping at a fault or refusal (R42). -/
def execAll : List Instr → State → Host.Outcome State Fault Refusal
  | [], s => .next s
  | i :: rest, s =>
    match exec i s with
    | .next t => execAll rest t
    | .fault f => .fault f
    | .refused r => .refused r

/-- Group `g` of a list of symbols, completed with fillers where the list ends inside it (R53, R104). -/
def groupAt (x : List Symbol) (g : Nat) : Vector Symbol 8 :=
  Vector.ofFn fun k => x.getD (8 * g + k) Config.fill

/-- The response that the order of R136 gives to an operation: decoding first, then `ovf`, then the
operation's capacity test, then the empty no-op, then the transport's answer. -/
def priorityResponse (i : Instr) (s : State) (frame : List Byte) : Response :=
  match i with
  | .reserved => ⟨.illegalCommand, 0, none⟩
  | .reset => ⟨.ok, 0, none⟩
  | .pack _ _ =>
    if s.ovf then overflowResponse
    else if s.cap < 9 * s.n / 8 + 2 then overflowResponse
    else ⟨.ok, 0, none⟩
  | .flush =>
    if s.ovf then overflowResponse
    else if s.cap < 9 * ((s.n + 7) / 8) then overflowResponse
    else if s.n = 0 then ⟨.ok, 0, none⟩
    else flushResponse (9 * ((s.n + 7) / 8)) (nextAnswer s frame)

/-! ## Renaming the transport's error values -/

/-- An answer with its error value renamed, into the same TERR or another. -/
def renameAnswer {T U : Type} (f : T → U) : Answer T → Answer U
  | .ok => .ok
  | .err e => .err (f e)

/-- A reply with its error value renamed. -/
def renameReply {T U : Type} (f : T → U) : Reply T → Reply U
  | .answers a => .answers (renameAnswer f a)
  | .silent => .silent

/-- An entry of the record with its error value renamed. -/
def renameEvent {T U : Type} (f : T → U) : Event T → Event U
  | .returned i r => .returned i ⟨r.status, r.bytesSent, r.terr.map f⟩
  | .hardReset => .hardReset

/-- A state with every error value of the transport renamed. -/
def renameErrors {T U : Type} (f : T → U) (s : State T) : State U :=
  { n := s.n
    mem := s.mem
    ovf := s.ovf
    cap := s.cap
    host := s.host
    draws := s.draws
    transport := s.transport.map (renameReply f)
    trace := s.trace.map (renameEvent f)
    sent := s.sent.map fun p => (p.1, renameAnswer f p.2) }

/-- An outcome whose next state is changed by `g`. -/
def mapOutcome {T U : Type} (g : State T → State U) :
    Host.Outcome (State T) Fault Refusal → Host.Outcome (State U) Fault Refusal
  | .next s => .next (g s)
  | .fault f => .fault f
  | .refused r => .refused r

end Sys2Proof.Machine
end

