-- ==== Sys2Proof/Certificates/Slice0/Obligations.lean ====
section
/-! DEFINITION. The statements for the provers. Each docstring names the rule of spec/ it formalises, or says
that a clause is the model's own choice and names its entry in notes/assumptions. -/

open Sys2Proof Sys2Proof.Machine

/-! ## Encoding (spec/30_encoding.md) -/

/-- Decoding the canonical word of a well-formed operation gives the operation, as a command word and as a
table word (R57, R58). -/
def Obligations.DecodeInvertsEncode : Prop :=
  ∀ i : Instr, i.wellFormed = true →
    decode (encode i) = i ∧ decodeNumber (encode i).toNat = .ok i ∧
      decodeTableWord 16 (encode i).toNat = some i

/-- Every word selects exactly one row, its operation code decides which, and PACK takes bit 8 and bits 7 to
0 (R57, R58). -/
def Obligations.WordSelectsExactlyItsRow : Prop :=
  ∀ w : CommandWord,
    (w &&& 0x600#11 = 0x000#11 →
      ∃ c d, decode w = .pack c d ∧ c.toNat = w.toNat / 256 ∧ d.toNat = w.toNat % 256) ∧
    (w &&& 0x600#11 = 0x200#11 → decode w = .flush) ∧
    (w &&& 0x600#11 = 0x400#11 → decode w = .reset) ∧
    (w &&& 0x600#11 = 0x600#11 → decode w = .reserved) ∧
    (w &&& 0x600#11 = 0x000#11 ∨ w &&& 0x600#11 = 0x200#11 ∨ w &&& 0x600#11 = 0x400#11 ∨
      w &&& 0x600#11 = 0x600#11)

/-- Bits 8 to 0 of a FLUSH, RESET or reserved word have no effect on the step (R57, R59). -/
def Obligations.IgnoredBitsHaveNoEffect : Prop :=
  ∀ (w v : CommandWord) (s : State), 512 ≤ w.toNat → w.toNat / 512 = v.toNat / 512 →
    step (issue w s) = step (issue v s)

/-- The words of the decoder's vectors decode to their operations (spec/95_test_vectors.md L2). -/
def Obligations.DecoderVectors : Prop :=
  decode 0x000#11 = pseudoFill ∧ decode 0x001#11 = pseudoCmd 0x01 ∧ decode 0x0FF#11 = .pack 0 0xFF ∧
  decode 0x100#11 = pseudoDat 0x00 ∧ decode 0x1FF#11 = .pack 1 0xFF ∧ decode 0x200#11 = .flush ∧
  decode 0x3A5#11 = .flush ∧ decode 0x400#11 = .reset ∧ decode 0x5FF#11 = .reset ∧
  decode 0x600#11 = .reserved ∧ decode 0x7FF#11 = .reserved

/-- What is wider than 11 bits is no command: the decoder rejects it, and it cannot be issued (R63; that the
model then issues nothing is its own choice, entry 9). -/
def Obligations.WiderNumberIsNoCommand : Prop :=
  ∀ (w nbits : Nat) (s : State), 2 ^ 11 ≤ w % 2 ^ nbits →
    decodeTableWord nbits w = none ∧ s.withFetchWord nbits w = s

/-! ## The step (spec/00_scope.md R8, spec/20_memory.md R42) -/

/-- When the host's next action is a command word, the step is its operation, from the state with that
action taken. That the host is a list in the state is the model's own choice (entry 1). -/
def Obligations.StepRunsDecodedCommand : Prop :=
  ∀ (s : State) (w : CommandWord) (rest : List HostAction), s.host = .command w :: rest →
    step s = exec (decode w) { s with host := rest }

/-- Issuing the canonical word of an operation makes the very next step that operation, from the same
state (R57, R58; how a word is issued is the model's own choice, entries 1 and 9). -/
def Obligations.IssuedWordRunsNext : Prop :=
  ∀ (s : State) (i : Instr), step (s.withFetchWord 16 (encode i).toNat) = exec i s

/-- A block to which nothing was issued stays as it is (the model's own choice, entry 1, for R8: "it takes
no step on its own"). -/
def Obligations.IdleBlockStays : Prop :=
  ∀ s : State, s.host = [] → step s = .next s

/-- Every step keeps the capacity (R10). It takes the next action of the host, if there is one, and only adds to
the record and to the frames handed over: that the host is a list in the state is the model's own choice, entry 1
(for R8, R42), and so is that the record and the frames are lists in the state, entry 10 (for R9). -/
def Obligations.StepKeepsCapacityAndPast : Prop :=
  ∀ s t : State, step s = .next t →
    t.cap = s.cap ∧ t.host = s.host.tail ∧ s.trace <+: t.trace ∧ s.sent <+: t.sent

/-! ## Reset (spec/70_reset_and_hazards.md R150, spec/43_lifecycle.md R118) -/

/-- Construction with any capacity, a hardware reset and the RESET operation leave the same state, the
initial one, and the two resets keep the capacity (R150). -/
def Obligations.EveryResetGivesInitialState : Prop :=
  (∀ cap, Initial (State.construct cap) ∧ (State.construct cap).cap = cap) ∧
  (∀ s, ∃ t, exec .reset s = .next t ∧ Initial t ∧ t.cap = s.cap) ∧
  (∀ s rest, s.host = .hardReset :: rest → ∃ t, step s = .next t ∧ Initial t ∧ t.cap = s.cap) ∧
  (∀ s, Initial s → statusView s = ⟨0, 0, true, true, false, .empty⟩)

/-- RESET is accepted in every state, empties the block, keeps the capacity, hands nothing over and returns
Ok (R118). -/
def Obligations.ResetEmptiesBlock : Prop :=
  ∀ s : State, exec .reset s =
    .next { s with n := 0, mem := [], ovf := false, trace := s.trace ++ [.returned .reset ⟨.ok, 0, none⟩] }

/-- A hardware reset between operations empties the block and reports nothing (R150, R152; that it is an
action of the host's list, marked in the record, is the model's own choice, entry 12). -/
def Obligations.HardwareResetEmptiesBlock : Prop :=
  ∀ (s : State) (rest : List HostAction), s.host = .hardReset :: rest →
    step s = .next { s with
      n := 0, mem := [], ovf := false, host := rest, trace := s.trace ++ [.hardReset] }

/-- The reserved code returns IllegalCommand whatever its ignored bits and whatever the state, and changes
no state of the block; no other word is illegal, and every word decodes to exactly one row (R59). -/
def Obligations.ReservedCodeIsIllegalCommand : Prop :=
  (∀ s : State, exec .reserved s =
    .next { s with trace := s.trace ++ [.returned .reserved ⟨.illegalCommand, 0, none⟩] }) ∧
  (∀ (s : State) (w : CommandWord) (rest : List HostAction), s.host = .command w :: rest →
    w &&& 0x600#11 = 0x600#11 →
    step s = .next { s with
      host := rest, trace := s.trace ++ [.returned .reserved ⟨.illegalCommand, 0, none⟩] }) ∧
  (∀ w : CommandWord, decode w = .reserved ↔ w &&& 0x600#11 = 0x600#11) ∧
  (∀ w : CommandWord, ∃! m : CommandWord,
    m ∈ [packMatch, flushMatch, resetMatch, reservedMatch] ∧ selectsRow w m = true)

/-! ## PACK (spec/40_pack.md) -/

/-- A PACK that fits appends its nine bits to the stream, control bit first, changes no earlier bit, leaves
zeros after the symbol, counts it, and changes nothing else; after it and after any operations that follow,
aligned counts are aligned lengths (R72). -/
def Obligations.PackAppendsSymbolBits : Prop :=
  ∀ (s : State) (x : List Symbol) (c : Bit) (d : Byte), WF s → Holds s x → s.ovf = false →
    byteIndex s.n + 2 ≤ s.cap →
    ∃ t, exec (.pack c d) s = .next t ∧
      t = { s with
        n := s.n + 1, mem := t.mem, trace := s.trace ++ [.returned (.pack c d) ⟨.ok, 0, none⟩] } ∧
      t.mem.length = byteIndex s.n + 2 ∧ t.mem.length = lenOf t.n ∧
      (∀ k, k < 9 * s.n → Memory.streamBit t.mem k = Memory.streamBit s.mem k) ∧
      Memory.streamBit t.mem (9 * s.n) = some (c.getLsbD 0) ∧
      (∀ j, j < 8 → Memory.streamBit t.mem (9 * s.n + 1 + j) = some (d.getLsbD (7 - j))) ∧
      (∀ k, 9 * s.n + 9 ≤ k → k < 8 * t.mem.length → Memory.streamBit t.mem k = some false) ∧
      (∀ is u, execAll is t = .next u → (u.n % 8 = 0 ↔ u.mem.length % 9 = 0)) ∧
      Holds t (x ++ [⟨c, d⟩])

/-- The bytes a successful PACK writes, by phase, are those of the spec's table, and every other byte is as
before (R76). -/
def Obligations.PackWritesTableBytes : Prop :=
  ∀ (s : State) (c : Bit) (d : Byte) (k o : Nat), WF s → s.ovf = false → s.n = 8 * k + o → o < 8 →
    9 * k + o + 2 ≤ s.cap →
    ∃ t old, exec (.pack c d) s = .next t ∧ t.n = s.n + 1 ∧
      (if o = 0 then old = 0x00 else Memory.read s.mem (9 * k + o) = some old) ∧
      (∀ b, b < 8 - o → old.getLsbD b = false) ∧
      t.mem.length = 9 * k + o + 2 ∧ t.mem.length = s.mem.length + (if o = 0 then 2 else 1) ∧
      Memory.read t.mem (9 * k + o) = some (old ||| tableHigh o c d) ∧
      Memory.read t.mem (9 * k + o + 1) = some (tableLow o d) ∧
      (∀ a, a ≠ 9 * k + o → a ≠ 9 * k + o + 1 → Memory.read t.mem a = Memory.read s.mem a)

/-- PACK fails exactly when the count is at its largest; the four forms of the test agree; the failure
changes nothing but `ovf` (R73). -/
def Obligations.PackOverflowsExactlyAtLimit : Prop :=
  (∀ (s : State) (c : Bit) (d : Byte), WF s → s.ovf = false →
    (s.cap < byteIndex s.n + 2 ↔ s.cap < lenOf (s.n + 1)) ∧
    (s.cap < byteIndex s.n + 2 ↔ s.cap < s.n + s.n / 8 + 2) ∧
    (s.cap < byteIndex s.n + 2 ↔ 8 * s.cap / 9 < s.n + 1) ∧
    (s.cap < byteIndex s.n + 2 ↔ s.n = nmax s.cap) ∧
    (s.cap < byteIndex s.n + 2 →
      exec (.pack c d) s = .next { s with
        ovf := true, trace := s.trace ++ [.returned (.pack c d) overflowResponse] }) ∧
    (byteIndex s.n + 2 ≤ s.cap → ∃ t, Returns (.pack c d) s t ⟨.ok, 0, none⟩)) ∧
  [0, 1, 2, 3, 8, 9, 10, 11, 17, 18, 27].map nmax = [0, 0, 1, 2, 7, 8, 8, 9, 15, 16, 24]

/-- While `ovf` is set, PACK returns BufferOverflow and changes nothing, and so does FLUSH, even of an empty
buffer (R74, R97). -/
def Obligations.OverflowedBlockRefusesPackAndFlush : Prop :=
  ∀ s : State, s.ovf = true →
    (∀ c d, exec (.pack c d) s = .next (withResponse (.pack c d) overflowResponse s)) ∧
    exec .flush s = .next (withResponse .flush overflowResponse s)

/-- `ovf` is sticky: once set, of the operations only RESET clears it, and nothing is handed over until then
(R16). The other way to clear it is a hardware reset, which has the same effect (R150); that it is an action of
the host's list is the model's own choice, entries 1 and 12. -/
def Obligations.OverflowIsLeftOnlyByReset : Prop :=
  (∀ (s : State) (i : Instr), s.ovf = true → i ≠ .reset →
    ∃ t, exec i s = .next t ∧ t.ovf = true ∧ t.n = s.n ∧ t.mem = s.mem ∧ t.sent = s.sent) ∧
  (∀ s t : State, s.ovf = true → step s = .next t → t.ovf = false →
    s.host.head? = some .hardReset ∨ ∃ w, s.host.head? = some (.command w) ∧ decode w = .reset)

/-- PACKs one after the other encode their symbols behind those already in the buffer, as long as they
fit (R104). -/
def Obligations.PackSequenceEncodesSymbols : Prop :=
  ∀ (s : State) (x y : List Symbol), Holds s x → s.ovf = false → s.n + y.length ≤ nmax s.cap →
    execAll (y.map packOf) s = .next { s with
      n := s.n + y.length
      mem := Memory.ofBytes (encodeStream (x ++ y))
      trace := s.trace ++ y.map fun z => .returned (packOf z) ⟨.ok, 0, none⟩ }

/-- Eight PACKs from an aligned state are one ENCODE8: nine bytes are added and nothing below them
changes (R103). -/
def Obligations.EightPacksAreOneGroup : Prop :=
  ∀ (s : State) (x : List Symbol) (g : Vector Symbol 8), Holds s x → s.ovf = false → s.n % 8 = 0 →
    s.n + 8 ≤ nmax s.cap →
    ∃ t, execAll (g.toList.map packOf) s = .next t ∧
      t.mem = s.mem ++ Memory.ofBytesFrom s.mem.length (encode8 g).toList ∧ t.n = s.n + 8 ∧ t.n % 8 = 0

/-- The control bit of one PACK has no effect on what a later PACK writes (R18). -/
def Obligations.ControlBitIsNotLatched : Prop :=
  ∀ (s : State) (c c' : Bit) (d : Byte) (y : Symbol), WF s → s.ovf = false → s.n + 2 ≤ nmax s.cap →
    ∃ t t', execAll [.pack c d, packOf y] s = .next t ∧ execAll [.pack c' d, packOf y] s = .next t' ∧
      t.n = t'.n ∧ t.ovf = t'.ovf ∧
      ∀ k, k ≠ 9 * s.n → Memory.streamBit t.mem k = Memory.streamBit t'.mem k

/-! ## FLUSH (spec/41_flush.md) -/

/-- A FLUSH that fits hands over, once, the encoding of the transaction's symbols and its fillers, empties
the block whatever the answer, and returns what the transport answered (R86, R91). That an answer not fixed
in the state is a free value is the model's own choice (entry 4). -/
def Obligations.FlushHandsOverPaddedTransaction : Prop :=
  ∀ (s : State) (x : List Symbol), Holds s x → s.ovf = false → 0 < s.n →
    9 * ((s.n + 7) / 8) ≤ s.cap → TransportAnswers s →
    exec .flush s = .next { s with
      n := 0
      mem := []
      transport := s.transport.tail
      draws := if s.transport = [] then s.draws + 1 else s.draws
      sent := s.sent ++
        [(encodeStream (withFillers x), nextAnswer s (encodeStream (withFillers x)))]
      trace := s.trace ++ [.returned .flush
        (flushResponse (9 * ((s.n + 7) / 8)) (nextAnswer s (encodeStream (withFillers x))))] }

/-- The frame is the buffer followed by zero bytes, and it is what packing the fillers one by one would
leave; between 1 and 7 fillers are needed off the boundary and none on it (R87). -/
def Obligations.PaddingIsPackingFillers : Prop :=
  ∀ (s : State) (x : List Symbol), Holds s x → s.ovf = false → paddedLen s.n ≤ s.cap →
    encodeStream (withFillers x) =
      s.mem.bytes ++ List.replicate (paddedLen s.n - lenOf s.n) 0x00 ∧
    (s.n % 8 = 0 → padding s.n = 0 ∧ paddedLen s.n = lenOf s.n) ∧
    (s.n % 8 ≠ 0 → 1 ≤ padding s.n ∧ padding s.n ≤ 7 ∧ paddedLen s.n - lenOf s.n = padding s.n) ∧
    ∃ t, execAll (List.replicate (padding s.n) pseudoFill) s = .next t ∧
      t.mem = Memory.ofBytes (encodeStream (withFillers x)) ∧ t.n % 8 = 0

/-- The padded length is tested before the first filler: if it does not fit, only `ovf` changes; that
happens only off the boundary and only for a capacity that is no multiple of 9; nine PACKs and a FLUSH at
capacity 17 are an example (R88). -/
def Obligations.FlushOverflowsBeforePadding : Prop :=
  (∀ s : State, s.ovf = false → s.cap < 9 * ((s.n + 7) / 8) →
    exec .flush s = .next { s with
      ovf := true, trace := s.trace ++ [.returned .flush overflowResponse] }) ∧
  (∀ s : State, WF s → s.cap % 9 = 0 ∨ s.n % 8 = 0 → 9 * ((s.n + 7) / 8) ≤ s.cap) ∧
  (∀ y : List Symbol, y.length = 9 →
    ∃ t, execAll (y.map packOf) (State.construct 17) = .next t ∧ t.ovf = false ∧ t.mem.length = 11 ∧
      exec .flush t = .next { t with
        ovf := true, trace := t.trace ++ [.returned .flush overflowResponse] })

/-- A FLUSH of an empty buffer returns Ok with nothing sent, changes nothing, and may be repeated any number
of times (R89). -/
def Obligations.EmptyFlushIsNoOp : Prop :=
  ∀ (s : State) (k : Nat), s.n = 0 → s.ovf = false →
    execAll (List.replicate k .flush) s = .next { s with
      trace := s.trace ++ List.replicate k (.returned .flush ⟨.ok, 0, none⟩) }

/-- A FLUSH of a non-empty aligned buffer pads nothing: it hands over the bytes as they stand and resets
(R90). -/
def Obligations.AlignedFlushSendsBufferAsItStands : Prop :=
  ∀ s : State, WF s → s.ovf = false → 0 < s.n → s.n % 8 = 0 → TransportAnswers s →
    s.mem.bytes.length = 9 * s.n / 8 ∧
    ∃ t, exec .flush s = .next t ∧ Initial t ∧ t.cap = s.cap ∧
      t.sent = s.sent ++ [(s.mem.bytes, nextAnswer s s.mem.bytes)]

/-- Whatever the transport answers, the state is the reset state; `ok` is returned as Ok with the frame's
length, `err(e)` as TransportError with `e` unchanged, and the frame was sent once (R92, R93). -/
def Obligations.FlushEndsAsTransportAnswers : Prop :=
  ∀ (s : State) (a : Config.Answer) (rest : List Config.Reply), WF s → s.ovf = false → 0 < s.n →
    9 * ((s.n + 7) / 8) ≤ s.cap → s.transport = .answers a :: rest →
    ∃ t frame, exec .flush s = .next t ∧ Initial t ∧ t.cap = s.cap ∧
      t.sent = s.sent ++ [(frame, a)] ∧ t.transport = rest ∧
      frame.length % 9 = 0 ∧ frame.length = 9 * ((s.n + 7) / 8) ∧
      (a = .ok → t.trace = s.trace ++ [.returned .flush ⟨.ok, frame.length, none⟩]) ∧
      (∀ e, a = .err e → t.trace = s.trace ++ [.returned .flush ⟨.transportError, 0, some e⟩])

/-- A FLUSH whose transport never answers never completes (spec/93_implementation_defined.md U3; that the
model says so by a fault is its own choice, entry 5). -/
def Obligations.SilentTransportHangsFlush : Prop :=
  ∀ s : State, WF s → s.ovf = false → 0 < s.n → 9 * ((s.n + 7) / 8) ≤ s.cap →
    s.transport.head? = some .silent → exec .flush s = .fault .transportSilent

/-- With a capacity of `9q` bytes, a transaction of at most `8q` symbols never overflows, in PACK or in
FLUSH, and is sent as its encoding (R153). -/
def Obligations.MultipleOfNineNeverOverflows : Prop :=
  ∀ (s : State) (q : Nat) (x : List Symbol), Initial s → s.cap = 9 * q → x.length ≤ 8 * q →
    TransportAnswers s →
    ∃ t, execAll (x.map packOf ++ [.flush]) s = .next t ∧ Initial t ∧
      (∀ i r, .returned i r ∈ t.trace.drop s.trace.length → r.status ≠ .bufferOverflow) ∧
      t.sent = s.sent ++ (if x = [] then [] else
        [(encodeStream (withFillers x), nextAnswer s (encodeStream (withFillers x)))])

/-- A capacity `9m + r` with `1 ≤ r ≤ 8` lets PACK succeed into counts above `8m` exactly when `r ≥ 2`; from
there no operation but RESET leads to a frame (R158). -/
def Obligations.OddCapacityHazard : Prop :=
  ∀ m r : Nat, 1 ≤ r → r ≤ 8 →
    (∀ n, 8 * m < n → n ≤ nmax (9 * m + r) →
      lenOf n ≤ 9 * m + r ∧ paddedLen n = 9 * (m + 1) ∧ 9 * m + r < paddedLen n) ∧
    ((∃ n, 8 * m < n ∧ n ≤ nmax (9 * m + r)) ↔ 2 ≤ r) ∧
    (∀ (s : State) (is : List Instr), WF s → s.cap = 9 * m + r → 8 * m < s.n → .reset ∉ is →
      ∃ t, execAll is s = .next t ∧ t.sent = s.sent ∧ 8 * m < t.n)

/-! ## Errors and responses (spec/60_exceptions.md, spec/30_encoding.md R60) -/

/-- Each error is raised exactly in the cases of R131, R132 and R133. -/
def Obligations.ErrorsAreRaisedExactly : Prop :=
  ∀ (s t : State) (i : Instr), exec i s = .next t →
    ∃ r, t.trace = s.trace ++ [.returned i r] ∧
      (r.status = .bufferOverflow ↔
        (∃ c d, i = .pack c d ∧ (s.ovf = true ∨ s.cap < 9 * s.n / 8 + 2)) ∨
        (i = .flush ∧ (s.ovf = true ∨ s.cap < 9 * ((s.n + 7) / 8)))) ∧
      (r.status = .illegalCommand ↔ i = .reserved) ∧
      (∀ e, (r.status = .transportError ∧ r.terr = some e) ↔
        (i = .flush ∧ ∃ frame, t.sent = s.sent ++ [(frame, .err e)]))

/-- What each error leaves behind (R134). -/
def Obligations.ErrorLeavesState : Prop :=
  ∀ (s t : State) (i : Instr) (r : Response), Returns i s t r →
    (r.status = .bufferOverflow → t = { s with ovf := true, trace := t.trace }) ∧
    (r.status = .transportError →
      t.n = 0 ∧ t.mem = [] ∧ t.ovf = s.ovf ∧ s.ovf = false ∧
      ∃ frame e, r.terr = some e ∧ t.sent = s.sent ++ [(frame, .err e)] ∧
        frame.length = paddedLen s.n ∧ ∀ x, Holds s x → frame = encodeStream (withFillers x)) ∧
    (r.status = .illegalCommand → t = { s with trace := t.trace })

/-- Every operation returns one response record, of the shape that R60 gives it. -/
def Obligations.ResponseShape : Prop :=
  (∀ (s t : State) (i : Instr), exec i s = .next t →
    ∃ r, t.trace = s.trace ++ [.returned i r] ∧
      ((∃ c d, i = .pack c d) → r.status = .ok ∨ r.status = .bufferOverflow) ∧
      (i = .flush →
        r.status = .ok ∨ r.status = .bufferOverflow ∨ r.status = .transportError) ∧
      (i = .reset → r.status = .ok) ∧
      (i = .reserved → r.status = .illegalCommand) ∧
      r.bytesSent ≤ s.cap ∧
      (r.bytesSent ≠ 0 → i = .flush ∧ r.status = .ok) ∧
      (i = .flush → r.status = .ok →
        if s.n = 0 then r.bytesSent = 0 ∧ t.sent = s.sent
        else ∃ frame, t.sent = s.sent ++ [(frame, .ok)] ∧ r.bytesSent = frame.length ∧
          frame.length = paddedLen s.n) ∧
      (r.terr.isSome ↔ r.status = .transportError) ∧
      (∀ e, r.terr = some e → ∃ frame, t.sent = s.sent ++ [(frame, .err e)])) ∧
  [Status.ok, .bufferOverflow, .transportError, .illegalCommand].map statusCode =
    [0b00#2, 0b01#2, 0b10#2, 0b11#2]

/-- From every well-formed state whose transport answers, every operation completes, with the response that
the order of conditions gives it (R136). -/
def Obligations.EveryOperationCompletesByPriority : Prop :=
  ∀ (s : State) (x : List Symbol) (i : Instr), WF s → Holds s x → TransportAnswers s →
    ∃ t, Returns i s t (priorityResponse i s (encodeStream (withFillers x)))

/-- The block only passes the transport's error value on, whatever the type TERR of such values: renaming them,
into the same type or another, before an operation or a step is renaming them after it; and the machine behind
the host's interface is this one at its own TERR (R5, R8, R132; which TERR that is, is open: entry 3). -/
def Obligations.TransportErrorValueIsOpaque : Prop :=
  (∀ (T U : Type) (f : T → U) (i : Instr) (s : State T), s.transport ≠ [] →
    operate i (renameErrors f s) = mapOutcome (renameErrors f) (operate i s) ∧
      stepAt (renameErrors f s) = mapOutcome (renameErrors f) (stepAt s)) ∧
  (∀ (i : Instr) (s : State), exec i s = operate i s) ∧ (∀ s : State, step s = stepAt s)

/-! ## The state machine (spec/43_lifecycle.md) -/

/-- The transition table, row by row (R116). -/
def Obligations.TransitionTable : Prop :=
  ∀ s : State, WF s →
    (∀ c d, modeOf s = .empty → byteIndex s.n + 2 ≤ s.cap →
      ∃ t, Returns (.pack c d) s t ⟨.ok, 0, none⟩ ∧ modeOf t = .accumulating ∧
        phase s.n = 0 ∧ phase t.n = 1 ∧ t.sent = s.sent) ∧
    (∀ c d, modeOf s = .accumulating → byteIndex s.n + 2 ≤ s.cap → phase s.n ≤ 6 →
      ∃ t, Returns (.pack c d) s t ⟨.ok, 0, none⟩ ∧ modeOf t = .accumulating ∧
        phase t.n = phase s.n + 1 ∧ t.sent = s.sent) ∧
    (∀ c d, modeOf s = .accumulating → byteIndex s.n + 2 ≤ s.cap → phase s.n = 7 →
      ∃ t, Returns (.pack c d) s t ⟨.ok, 0, none⟩ ∧ modeOf t = .empty ∧ t.sent = s.sent) ∧
    (∀ c d, modeOf s ≠ .faulted → s.cap < byteIndex s.n + 2 →
      ∃ t, Returns (.pack c d) s t overflowResponse ∧ modeOf t = .faulted ∧ t.n = s.n ∧
        t.mem = s.mem ∧ t.sent = s.sent) ∧
    (modeOf s = .empty → s.n = 0 →
      exec .flush s = .next (withResponse .flush ⟨.ok, 0, none⟩ s)) ∧
    (modeOf s = .empty → 0 < s.n → TransportAnswers s →
      ∃ t frame a, Returns .flush s t (flushResponse s.mem.length a) ∧ modeOf t = .empty ∧ t.n = 0 ∧
        t.sent = s.sent ++ [(frame, a)]) ∧
    (modeOf s = .accumulating → paddedLen s.n ≤ s.cap → TransportAnswers s →
      ∃ t frame a, Returns .flush s t (flushResponse (paddedLen s.n) a) ∧ modeOf t = .empty ∧
        t.n = 0 ∧ t.sent = s.sent ++ [(frame, a)]) ∧
    (modeOf s = .accumulating → s.cap < paddedLen s.n →
      ∃ t, Returns .flush s t overflowResponse ∧ modeOf t = .faulted ∧ t.n = s.n ∧ t.mem = s.mem ∧
        t.sent = s.sent) ∧
    (∀ c d, modeOf s = .faulted →
      exec (.pack c d) s = .next (withResponse (.pack c d) overflowResponse s)) ∧
    (modeOf s = .faulted → exec .flush s = .next (withResponse .flush overflowResponse s)) ∧
    (∃ t, Returns .reset s t ⟨.ok, 0, none⟩ ∧ modeOf t = .empty ∧ t.n = 0 ∧ t.ovf = false ∧
      t.sent = s.sent) ∧
    exec .reserved s = .next (withResponse .reserved ⟨.illegalCommand, 0, none⟩ s)

/-- The status view of a well-formed state says what its buffer holds (R14, R17). -/
def Obligations.StatusViewOfWellFormedState : Prop :=
  ∀ s : State, WF s →
    (statusView s).len = s.mem.length ∧ ((statusView s).empty = true ↔ s.mem = []) ∧
    ((statusView s).aligned = true ↔ s.mem.length % 9 = 0) ∧
    ((statusView s).state = .faulted ↔ s.ovf = true) ∧
    ((statusView s).state = .empty ↔ s.ovf = false ∧ s.mem.length % 9 = 0) ∧
    ((statusView s).state = .accumulating ↔ s.ovf = false ∧ 1 ≤ s.n % 8 ∧ s.n % 8 ≤ 7)

/-! ## Invariants (spec/10_state.md, spec/20_memory.md) -/

/-- Every constructed state, and the reset state, has every invariant stated below (R21, R23). The reset
state's capacity is the model's own choice (entry 2); no clause depends on it. -/
def Obligations.ConstructedStateHasInvariants : Prop :=
  (∀ cap, WF (State.construct cap) ∧ Explained (State.construct cap) ∧
    BufferInBounds (State.construct cap) ∧ FramesLegal (State.construct cap)) ∧
  WF State.reset ∧ Explained State.reset ∧ BufferInBounds State.reset ∧ FramesLegal State.reset

/-- Every step keeps well-formedness (R23). -/
def Obligations.StepKeepsWellFormed : Prop :=
  ∀ s t : State, WF s → step s = .next t → WF t

/-- Every step keeps the state explained by the run's record, which is a list in the state by the model's own
choice, entry 10: the buffer is the encoding of the symbols
packed since the last reset of the count, `ovf` is set exactly when an operation since the last reset
overflowed, and every frame is one transaction's symbols and fillers and nothing else (R22, R23, R95). -/
def Obligations.StepKeepsStateExplainedByRecord : Prop :=
  ∀ s t : State, Explained s → step s = .next t → Explained t

/-- Every step keeps the buffer below the capacity, from any state (R13, R40), and its (index, byte) pairs in
canonical form, which is the model's own choice, entry 6. -/
def Obligations.StepKeepsBufferInBounds : Prop :=
  ∀ s t : State, BufferInBounds s → step s = .next t → BufferInBounds t

/-- Every step keeps every frame handed over a positive multiple of 9 bytes, at most `9 * floor(CAP / 9)`
(R54, R142). -/
def Obligations.StepKeepsFramesLegal : Prop :=
  ∀ s t : State, FramesLegal s → step s = .next t → FramesLegal t

/-- No step accesses an index `CAP` or above, from any state (R40). That an access there would stop, with the
fault outsideBuffer, is the model's own choice, entry 6. -/
def Obligations.NoAccessBeyondCapacity : Prop :=
  (∀ s : State, step s ≠ .fault .outsideBuffer) ∧
  (∀ (s : State) (i : Nat) (v : Byte), s.cap ≤ i →
    memAlloc i s = .error .outsideBuffer ∧ memRead i s = .error .outsideBuffer ∧
      memWrite i v s = .error .outsideBuffer)

/-- From a well-formed state whose transport answers, every step completes (R122, R160). -/
def Obligations.WellFormedStepCompletes : Prop :=
  ∀ s : State, WF s → TransportAnswers s → ∃ t, step s = .next t

/-- The source's invariants of the buffer: group `g` occupies bytes `9g` to `9g + 8`; aligned counts are
aligned lengths; the unused low bits of the last byte are zero; the buffer never shrinks but to empty (R14,
R15). -/
def Obligations.BufferInvariants : Prop :=
  (∀ (s : State) (x : List Symbol) (g : Nat), WF s → Holds s x → 8 * g + 8 ≤ s.n →
    (s.mem.bytes.drop (9 * g)).take 9 = (encode8 (groupAt x g)).toList) ∧
  (∀ s : State, WF s →
    (s.n % 8 = 0 ↔ s.mem.length % 9 = 0) ∧
    s.mem.length = (if s.n % 8 = 0 then byteIndex s.n else byteIndex s.n + 1) ∧
    ∀ k, 9 * s.n ≤ k → k < 8 * s.mem.length → Memory.streamBit s.mem k = some false) ∧
  (∀ s t : State, WF s → step s = .next t → t.mem.length < s.mem.length → Initial t)

/-- Nothing but the block's own four elements and the transport matters to what an operation does: another
record, other frames sent before and other commands pending change nothing else (R10, R22). That those three
are lists in the state is the model's own choice, entries 1 and 10. -/
def Obligations.OnlyBlockStateMatters : Prop :=
  ∀ (i : Instr) (s : State) (host : List HostAction) (trace : List Event)
    (sent : List (List Byte × Config.Answer)),
    exec i { s with host := host, trace := trace, sent := sent } =
      mapOutcome (fun t => { t with
        host := host
        trace := trace ++ t.trace.drop s.trace.length
        sent := sent ++ t.sent.drop s.sent.length }) (exec i s)

/-! ## The encoder and its laws (spec/42_group_encoder.md) -/

/-- ENCODE8 is the 72-bit string cut into nine bytes, injective and onto (R100). -/
def Obligations.GroupEncoderIsABijection : Prop :=
  (∀ (g : Vector Symbol 8) (j t : Nat) (hj : j < 9), t < 8 →
    ((encode8 g)[j]).getLsbD (7 - t) = symbolBit g.toList (8 * j + t)) ∧
  Function.Injective encode8 ∧ Function.Surjective encode8

/-- DECODE8 is the inverse of ENCODE8, and is its general formula (R102). -/
def Obligations.GroupDecoderInvertsEncoder : Prop :=
  (∀ g, decode8 (encode8 g) = g) ∧ (∀ b, encode8 (decode8 b) = b) ∧
  (∀ (b : Vector Byte 9) (k : Nat) (hk : k < 8),
    (decode8 b)[k].c.toNat = b[k].toNat / 2 ^ (7 - k) % 2 ∧
    (decode8 b)[k].d = ((b[k] &&& BitVec.ofNat 8 (2 ^ (7 - k) - 1)) <<< (k + 1)) |||
      (b[k + 1] >>> (7 - k)))

/-- ENCODE: its bits are the stream's and zeros after it; it grows as PACK grows the buffer; it splits by
groups (R104). -/
def Obligations.StreamEncoderLaws : Prop :=
  (∀ (x : List Symbol) (j t : Nat), j < lenOf x.length → t < 8 →
    ((encodeStream x).getD j 0).getLsbD (7 - t) =
      if 8 * j + t < 9 * x.length then
        (symbolValue (x.getD ((8 * j + t) / 9) Config.fill)).getLsbD (8 - (8 * j + t) % 9)
      else false) ∧
  encodeStream [] = [] ∧
  (∀ (s : State) (x : List Symbol) (y : Symbol), Holds s x → s.ovf = false → s.n + 1 ≤ nmax s.cap →
    ∃ t, exec (packOf y) s = .next t ∧ Holds t (x ++ [y])) ∧
  (∀ (gs : List (Vector Symbol 8)) (r : List Symbol), r.length < 8 →
    encodeStream (gs.flatMap Vector.toList ++ r) =
      gs.flatMap (fun g => (encode8 g).toList) ++
        (if r = [] then [] else (encode8 (groupAt r 0)).toList.take (r.length + 1)))

/-- DECODE gives `N` symbols whose bits are the stream's, its two forms agree, DECODE of an encoding gives
back every symbol in order, and DECODE of the buffer is the list of symbols packed (R105). -/
def Obligations.DecodeStreamRoundTrip : Prop :=
  (∀ (b : List Byte) (count : Nat), lenOf count ≤ b.length →
    (decodeStream b count).length = count ∧
    ∀ k, k < count →
      (∀ j, j ≤ 8 →
        (symbolValue ((decodeStream b count).getD k Config.fill)).getLsbD (8 - j) =
          (b.getD ((9 * k + j) / 8) 0).getLsbD (7 - (9 * k + j) % 8)) ∧
      (symbolValue ((decodeStream b count).getD k Config.fill)).toNat =
        ((b.getD (9 * k / 8) 0).toNat * 256 + (b.getD (9 * k / 8 + 1) 0).toNat) /
          2 ^ (7 - 9 * k % 8) % 512) ∧
  (∀ x, decodeStream (encodeStream x) x.length = x) ∧
  (∀ (s : State) (x : List Symbol), Holds s x → decodeStream s.mem.bytes s.n = x)

/-- The padding law: fillers add zero bytes up to a whole group, decoding the frame gives the symbols and
the fillers, and the frame does not tell where the fillers begin (R106). -/
def Obligations.PaddingLaw : Prop :=
  ∀ x : List Symbol,
    encodeStream (withFillers x) =
      encodeStream x ++ List.replicate (if x.length % 8 = 0 then 0 else 8 - x.length % 8) 0x00 ∧
    (encodeStream (withFillers x)).length = 9 * ((x.length + 7) / 8) ∧
    decodeStream (encodeStream (withFillers x)) (8 * (encodeStream (withFillers x)).length / 9) =
      x ++ List.replicate ((8 - x.length % 8) % 8) ⟨0, 0x00⟩ ∧
    encodeStream (withFillers (withFillers x)) = encodeStream (withFillers x)

/-- The prefix law: packing more symbols changes no finalized byte, and of the last, partly filled byte only
the bits not yet covered (R107). -/
def Obligations.PrefixLaw : Prop :=
  ∀ x y : List Symbol,
    (encodeStream (x ++ y)).take (9 * x.length / 8) = (encodeStream x).take (9 * x.length / 8) ∧
    ∀ t, t < x.length % 8 →
      ((encodeStream (x ++ y)).getD (9 * x.length / 8) 0).getLsbD (7 - t) =
        ((encodeStream x).getD (9 * x.length / 8) 0).getLsbD (7 - t)

/-- The group independence law: a group's bytes depend on its symbols only, a symbol affects two bytes only,
and so changing one symbol changes at most two bytes of a frame (R108). -/
def Obligations.GroupIndependenceLaw : Prop :=
  (∀ (x y : List Symbol) (g j : Nat), (∀ k, 8 * g ≤ k → k < 8 * g + 8 → x[k]? = y[k]?) →
    9 * g ≤ j → j < 9 * g + 9 → (encodeStream x)[j]? = (encodeStream y)[j]?) ∧
  (∀ (x : List Symbol) (k j : Nat) (y : Symbol), j ≠ k + k / 8 → j ≠ k + k / 8 + 1 →
    (encodeStream (x.set k y))[j]? = (encodeStream x)[j]?) ∧
  (∀ (x : List Symbol) (k j : Nat) (y : Symbol), j ≠ k + k / 8 → j ≠ k + k / 8 + 1 →
    (encodeStream (withFillers (x.set k y)))[j]? = (encodeStream (withFillers x))[j]?)

/-- The length law: `ceil(9 N / 8)` bytes, a multiple of 9 exactly for whole groups, never 1 more than a
multiple of 9, and so no well-formed buffer has such a length (R109). -/
def Obligations.LengthLaw : Prop :=
  (∀ x : List Symbol,
    (encodeStream x).length = (9 * x.length + 7) / 8 ∧
    ((encodeStream x).length % 9 = 0 ↔ x.length % 8 = 0) ∧ (encodeStream x).length % 9 ≠ 1) ∧
  (∀ s : State, WF s → s.mem.length % 9 ≠ 1)
end

