-- ==== Sys2Proof/Laws/Memory.lean ====
section
/-! SUPPORT. The laws of the buffer: reading after a write, the canonical form, and the buffers that are
laid out from a list of bytes. -/

namespace Sys2Proof.Machine

@[simp] theorem Memory.read_nil (a : Nat) : Memory.read [] a = none := rfl

@[simp] theorem Memory.read_cons (b : Nat) (v : Byte) (m : Memory) (a : Nat) :
    Memory.read ((b, v) :: m) a = if a = b then some v else Memory.read m a := rfl

/-- A read gives the byte last written to its index, and every other index reads as before. -/
theorem Memory.read_write (m : Memory) (a b : Nat) (v : Byte) :
    Memory.read (Memory.write m a v) b = if b = a then some v else Memory.read m b := by
  induction m with
  | nil => simp [Memory.write]
  | cons x m ih =>
    obtain ⟨c, w⟩ := x
    simp only [Memory.write]
    split
    · simp
    · split
      · subst_vars
        simp only [Memory.read_cons]
        split <;> rfl
      · simp only [Memory.read_cons, ih]
        by_cases h : b = c
        · subst h
          simp_all [eq_comm]
        · simp [h]

/-- A read gives the byte last written to its index. -/
@[simp] theorem Memory.read_write_same (m : Memory) (a : Nat) (v : Byte) :
    Memory.read (Memory.write m a v) a = some v := by simp [Memory.read_write]

/-- A write leaves every other index alone. -/
theorem Memory.read_write_other (m : Memory) (a b : Nat) (v : Byte) (h : b ≠ a) :
    Memory.read (Memory.write m a v) b = Memory.read m b := by simp [Memory.read_write, h]

/-- What is listed after a write is the new pair or was listed before. -/
theorem Memory.mem_write {m : Memory} {a : Nat} {v : Byte} {x : Host.Cell}
    (h : x ∈ Memory.write m a v) : x = (a, v) ∨ x ∈ m := by
  induction m with
  | nil => simpa [Memory.write] using h
  | cons y m ih =>
    obtain ⟨c, w⟩ := y
    simp only [Memory.write] at h
    split at h
    · simpa using h
    · split at h
      · simp only [List.mem_cons] at h ⊢
        tauto
      · simp only [List.mem_cons] at h ⊢
        rcases h with h | h
        · exact .inr (.inl h)
        · rcases ih h with h | h
          · exact .inl h
          · exact .inr (.inr h)

/-- The canonical form is rising indices: no byte equals what an unlisted index reads as. -/
theorem Memory.wf_iff (m : Memory) : Memory.wf m ↔ m.Pairwise (fun x y => x.1 < y.1) := by
  simp [Memory.wf, Memory.unlisted]

/-- A write keeps the canonical form. -/
theorem Memory.wf_write {m : Memory} (h : Memory.wf m) (a : Nat) (v : Byte) :
    Memory.wf (Memory.write m a v) := by
  rw [Memory.wf_iff] at h ⊢
  induction m with
  | nil => simp [Memory.write]
  | cons y m ih =>
    obtain ⟨c, w⟩ := y
    rw [List.pairwise_cons] at h
    obtain ⟨hy, hm⟩ := h
    simp only [Memory.write]
    split
    · rename_i hac
      refine List.pairwise_cons.2 ⟨?_, List.pairwise_cons.2 ⟨hy, hm⟩⟩
      intro x hx
      rcases List.mem_cons.1 hx with rfl | hx
      · exact hac
      · exact Nat.lt_trans hac (hy x hx)
    · split
      · subst_vars
        exact List.pairwise_cons.2 ⟨hy, hm⟩
      · refine List.pairwise_cons.2 ⟨?_, ih hm⟩
        intro x hx
        rcases Memory.mem_write hx with rfl | hx
        · simp only
          omega
        · exact hy x hx

/-- The empty buffer is in canonical form. -/
theorem Memory.wf_nil : Memory.wf [] := by simp [Memory.wf_iff]

/-! ## Buffers laid out from a list of bytes -/

@[simp] theorem Memory.ofBytesFrom_nil (k : Nat) : Memory.ofBytesFrom k [] = [] := rfl

@[simp] theorem Memory.ofBytesFrom_cons (k : Nat) (v : Byte) (b : List Byte) :
    Memory.ofBytesFrom k (v :: b) = (k, v) :: Memory.ofBytesFrom (k + 1) b := rfl

@[simp] theorem Memory.length_ofBytesFrom (k : Nat) (b : List Byte) :
    (Memory.ofBytesFrom k b).length = b.length := by
  induction b generalizing k with
  | nil => rfl
  | cons v b ih => simp [ih]

@[simp] theorem Memory.length_ofBytes (b : List Byte) : (Memory.ofBytes b).length = b.length :=
  Memory.length_ofBytesFrom 0 b

@[simp] theorem Memory.bytes_ofBytesFrom (k : Nat) (b : List Byte) :
    Memory.bytes (Memory.ofBytesFrom k b) = b := by
  induction b generalizing k with
  | nil => rfl
  | cons v b ih =>
    have := ih (k + 1)
    simp_all [Memory.bytes]

@[simp] theorem Memory.bytes_ofBytes (b : List Byte) : Memory.bytes (Memory.ofBytes b) = b :=
  Memory.bytes_ofBytesFrom 0 b

theorem Memory.ofBytesFrom_append (k : Nat) (b b' : List Byte) :
    Memory.ofBytesFrom k (b ++ b') =
      Memory.ofBytesFrom k b ++ Memory.ofBytesFrom (k + b.length) b' := by
  induction b generalizing k with
  | nil => simp
  | cons v b ih => simp [ih, Nat.add_assoc, Nat.add_comm 1]

theorem Memory.read_ofBytesFrom (k : Nat) (b : List Byte) (a : Nat) :
    Memory.read (Memory.ofBytesFrom k b) a = if k ≤ a then b[a - k]? else none := by
  induction b generalizing k with
  | nil => simp
  | cons v b ih =>
    simp only [Memory.ofBytesFrom_cons, Memory.read_cons, ih]
    by_cases h : a = k
    · simp [h]
    · by_cases h' : k ≤ a
      · obtain ⟨j, rfl⟩ : ∃ j, a = k + 1 + j := ⟨a - k - 1, by omega⟩
        rw [if_neg h, if_pos (by omega), if_pos h', show k + 1 + j - (k + 1) = j by omega,
          show k + 1 + j - k = j + 1 by omega]
        simp
      · rw [if_neg h, if_neg (by omega), if_neg h']

/-- Reading a laid out buffer is looking up its list of bytes. -/
@[simp] theorem Memory.read_ofBytes (b : List Byte) (a : Nat) :
    Memory.read (Memory.ofBytes b) a = b[a]? := by
  simp [Memory.ofBytes, Memory.read_ofBytesFrom]

theorem Memory.write_ofBytesFrom_end (k : Nat) (b : List Byte) (v : Byte) :
    Memory.write (Memory.ofBytesFrom k b) (k + b.length) v = Memory.ofBytesFrom k (b ++ [v]) := by
  induction b generalizing k with
  | nil => simp [Memory.write]
  | cons w b ih =>
    have := ih (k + 1)
    simp only [Memory.ofBytesFrom_cons, List.cons_append, Memory.write, List.length_cons]
    rw [if_neg (by omega), if_neg (by omega), ← this]
    congr 2
    omega

/-- Writing at the end of a laid out buffer appends a byte. -/
theorem Memory.write_ofBytes_end (b : List Byte) (v : Byte) :
    Memory.write (Memory.ofBytes b) b.length v = Memory.ofBytes (b ++ [v]) := by
  simpa [Memory.ofBytes] using Memory.write_ofBytesFrom_end 0 b v

theorem Memory.write_ofBytesFrom_set (k : Nat) (b : List Byte) (a : Nat) (v : Byte)
    (h : a < b.length) :
    Memory.write (Memory.ofBytesFrom k b) (k + a) v = Memory.ofBytesFrom k (b.set a v) := by
  induction b generalizing k a with
  | nil => simp at h
  | cons w b ih =>
    cases a with
    | zero => simp [Memory.write]
    | succ a =>
      have := ih (k + 1) a (by simpa using h)
      simp only [Memory.ofBytesFrom_cons, Memory.write, List.set_cons_succ]
      rw [if_neg (by omega), if_neg (by omega), ← this]
      congr 2
      omega

/-- Writing inside a laid out buffer replaces a byte. -/
theorem Memory.write_ofBytes_set (b : List Byte) (a : Nat) (v : Byte) (h : a < b.length) :
    Memory.write (Memory.ofBytes b) a v = Memory.ofBytes (b.set a v) := by
  simpa [Memory.ofBytes] using Memory.write_ofBytesFrom_set 0 b a v h

theorem Memory.mem_ofBytesFrom {k : Nat} {b : List Byte} {x : Host.Cell}
    (h : x ∈ Memory.ofBytesFrom k b) : k ≤ x.1 ∧ x.1 < k + b.length := by
  induction b generalizing k with
  | nil => simp at h
  | cons v b ih =>
    rcases List.mem_cons.1 h with rfl | h
    · simp
    · have := ih h
      simp only [List.length_cons]
      omega

/-- A laid out buffer is in canonical form. -/
theorem Memory.wf_ofBytes (b : List Byte) : Memory.wf (Memory.ofBytes b) := by
  rw [Memory.wf_iff, Memory.ofBytes]
  generalize 0 = k
  induction b generalizing k with
  | nil => simp
  | cons v b ih =>
    refine List.pairwise_cons.2 ⟨?_, ih (k + 1)⟩
    intro x hx
    have := Memory.mem_ofBytesFrom hx
    simp only
    omega

end Sys2Proof.Machine
end

