-- ==== Sys2Proof/Laws/State.lean ====
section
/-! SUPPORT. One lemma per field per update of the state, so that no proof unfolds a record update. -/

namespace Sys2Proof.Machine

variable {TERR : Type}

@[simp] theorem State.setMem_n (s : State TERR) (m : Memory) : (s.setMem m).n = s.n := rfl
@[simp] theorem State.setMem_mem (s : State TERR) (m : Memory) : (s.setMem m).mem = m := rfl
@[simp] theorem State.setMem_ovf (s : State TERR) (m : Memory) : (s.setMem m).ovf = s.ovf := rfl
@[simp] theorem State.setMem_cap (s : State TERR) (m : Memory) : (s.setMem m).cap = s.cap := rfl
@[simp] theorem State.setMem_host (s : State TERR) (m : Memory) : (s.setMem m).host = s.host := rfl
@[simp] theorem State.setMem_transport (s : State TERR) (m : Memory) : (s.setMem m).transport = s.transport := rfl
@[simp] theorem State.setMem_draws (s : State TERR) (m : Memory) : (s.setMem m).draws = s.draws := rfl
@[simp] theorem State.setMem_trace (s : State TERR) (m : Memory) : (s.setMem m).trace = s.trace := rfl
@[simp] theorem State.setMem_sent (s : State TERR) (m : Memory) : (s.setMem m).sent = s.sent := rfl

@[simp] theorem clearTransaction_n (s : State TERR) : (clearTransaction s).n = 0 := rfl
@[simp] theorem clearTransaction_mem (s : State TERR) : (clearTransaction s).mem = [] := rfl
@[simp] theorem clearTransaction_ovf (s : State TERR) : (clearTransaction s).ovf = s.ovf := rfl
@[simp] theorem clearTransaction_cap (s : State TERR) : (clearTransaction s).cap = s.cap := rfl
@[simp] theorem clearTransaction_host (s : State TERR) : (clearTransaction s).host = s.host := rfl
@[simp] theorem clearTransaction_transport (s : State TERR) : (clearTransaction s).transport = s.transport := rfl
@[simp] theorem clearTransaction_draws (s : State TERR) : (clearTransaction s).draws = s.draws := rfl
@[simp] theorem clearTransaction_trace (s : State TERR) : (clearTransaction s).trace = s.trace := rfl
@[simp] theorem clearTransaction_sent (s : State TERR) : (clearTransaction s).sent = s.sent := rfl

@[simp] theorem resetBlock_n (s : State TERR) : (resetBlock s).n = 0 := rfl
@[simp] theorem resetBlock_mem (s : State TERR) : (resetBlock s).mem = [] := rfl
@[simp] theorem resetBlock_ovf (s : State TERR) : (resetBlock s).ovf = false := rfl
@[simp] theorem resetBlock_cap (s : State TERR) : (resetBlock s).cap = s.cap := rfl
@[simp] theorem resetBlock_host (s : State TERR) : (resetBlock s).host = s.host := rfl
@[simp] theorem resetBlock_transport (s : State TERR) : (resetBlock s).transport = s.transport := rfl
@[simp] theorem resetBlock_draws (s : State TERR) : (resetBlock s).draws = s.draws := rfl
@[simp] theorem resetBlock_trace (s : State TERR) : (resetBlock s).trace = s.trace := rfl
@[simp] theorem resetBlock_sent (s : State TERR) : (resetBlock s).sent = s.sent := rfl

@[simp] theorem hardwareReset_n (s : State TERR) : (hardwareReset s).n = 0 := rfl
@[simp] theorem hardwareReset_mem (s : State TERR) : (hardwareReset s).mem = [] := rfl
@[simp] theorem hardwareReset_ovf (s : State TERR) : (hardwareReset s).ovf = false := rfl
@[simp] theorem hardwareReset_cap (s : State TERR) : (hardwareReset s).cap = s.cap := rfl
@[simp] theorem hardwareReset_host (s : State TERR) : (hardwareReset s).host = s.host := rfl
@[simp] theorem hardwareReset_transport (s : State TERR) : (hardwareReset s).transport = s.transport := rfl
@[simp] theorem hardwareReset_draws (s : State TERR) : (hardwareReset s).draws = s.draws := rfl
@[simp] theorem hardwareReset_trace (s : State TERR) : (hardwareReset s).trace = s.trace ++ [.hardReset] := rfl
@[simp] theorem hardwareReset_sent (s : State TERR) : (hardwareReset s).sent = s.sent := rfl

@[simp] theorem respond_n (i : Instr) (r : Response TERR) (s : State TERR) : (respond i r s).n = s.n := rfl
@[simp] theorem respond_mem (i : Instr) (r : Response TERR) (s : State TERR) : (respond i r s).mem = s.mem := rfl
@[simp] theorem respond_ovf (i : Instr) (r : Response TERR) (s : State TERR) : (respond i r s).ovf = s.ovf := rfl
@[simp] theorem respond_cap (i : Instr) (r : Response TERR) (s : State TERR) : (respond i r s).cap = s.cap := rfl
@[simp] theorem respond_host (i : Instr) (r : Response TERR) (s : State TERR) : (respond i r s).host = s.host := rfl
@[simp] theorem respond_transport (i : Instr) (r : Response TERR) (s : State TERR) : (respond i r s).transport = s.transport := rfl
@[simp] theorem respond_draws (i : Instr) (r : Response TERR) (s : State TERR) : (respond i r s).draws = s.draws := rfl
@[simp] theorem respond_trace (i : Instr) (r : Response TERR) (s : State TERR) : (respond i r s).trace = s.trace ++ [.returned i r] := rfl
@[simp] theorem respond_sent (i : Instr) (r : Response TERR) (s : State TERR) : (respond i r s).sent = s.sent := rfl

@[simp] theorem raiseError_n (i : Instr) (e : Error TERR) (s : State TERR) : (raiseError i e s).n = s.n := by cases e <;> rfl
@[simp] theorem raiseError_mem (i : Instr) (e : Error TERR) (s : State TERR) : (raiseError i e s).mem = s.mem := by cases e <;> rfl
@[simp] theorem raiseError_bufferOverflow_ovf (i : Instr) (s : State TERR) : (raiseError i .bufferOverflow s).ovf = true := rfl
@[simp] theorem raiseError_transportError_ovf (i : Instr) (e : TERR) (s : State TERR) : (raiseError i (.transportError e) s).ovf = s.ovf := rfl
@[simp] theorem raiseError_illegalCommand_ovf (i : Instr) (s : State TERR) : (raiseError i .illegalCommand s).ovf = s.ovf := rfl
@[simp] theorem raiseError_cap (i : Instr) (e : Error TERR) (s : State TERR) : (raiseError i e s).cap = s.cap := by cases e <;> rfl
@[simp] theorem raiseError_host (i : Instr) (e : Error TERR) (s : State TERR) : (raiseError i e s).host = s.host := by cases e <;> rfl
@[simp] theorem raiseError_transport (i : Instr) (e : Error TERR) (s : State TERR) : (raiseError i e s).transport = s.transport := by cases e <;> rfl
@[simp] theorem raiseError_draws (i : Instr) (e : Error TERR) (s : State TERR) : (raiseError i e s).draws = s.draws := by cases e <;> rfl
@[simp] theorem raiseError_trace (i : Instr) (e : Error TERR) (s : State TERR) : (raiseError i e s).trace = s.trace ++ [.returned i (errorResponse e)] := by cases e <;> rfl
@[simp] theorem raiseError_sent (i : Instr) (e : Error TERR) (s : State TERR) : (raiseError i e s).sent = s.sent := by cases e <;> rfl

@[simp] theorem issue_n (w : CommandWord) (s : State TERR) : (issue w s).n = s.n := rfl
@[simp] theorem issue_mem (w : CommandWord) (s : State TERR) : (issue w s).mem = s.mem := rfl
@[simp] theorem issue_ovf (w : CommandWord) (s : State TERR) : (issue w s).ovf = s.ovf := rfl
@[simp] theorem issue_cap (w : CommandWord) (s : State TERR) : (issue w s).cap = s.cap := rfl
@[simp] theorem issue_host (w : CommandWord) (s : State TERR) : (issue w s).host = .command w :: s.host := rfl
@[simp] theorem issue_transport (w : CommandWord) (s : State TERR) : (issue w s).transport = s.transport := rfl
@[simp] theorem issue_draws (w : CommandWord) (s : State TERR) : (issue w s).draws = s.draws := rfl
@[simp] theorem issue_trace (w : CommandWord) (s : State TERR) : (issue w s).trace = s.trace := rfl
@[simp] theorem issue_sent (w : CommandWord) (s : State TERR) : (issue w s).sent = s.sent := rfl

@[simp] theorem takeAction_n (s : State TERR) : (takeAction s).n = s.n := rfl
@[simp] theorem takeAction_mem (s : State TERR) : (takeAction s).mem = s.mem := rfl
@[simp] theorem takeAction_ovf (s : State TERR) : (takeAction s).ovf = s.ovf := rfl
@[simp] theorem takeAction_cap (s : State TERR) : (takeAction s).cap = s.cap := rfl
@[simp] theorem takeAction_host (s : State TERR) : (takeAction s).host = s.host.tail := rfl
@[simp] theorem takeAction_transport (s : State TERR) : (takeAction s).transport = s.transport := rfl
@[simp] theorem takeAction_draws (s : State TERR) : (takeAction s).draws = s.draws := rfl
@[simp] theorem takeAction_trace (s : State TERR) : (takeAction s).trace = s.trace := rfl
@[simp] theorem takeAction_sent (s : State TERR) : (takeAction s).sent = s.sent := rfl

@[simp] theorem State.construct_n (c : Nat) : (State.construct c).n = 0 := rfl
@[simp] theorem State.construct_mem (c : Nat) : (State.construct c).mem = [] := rfl
@[simp] theorem State.construct_ovf (c : Nat) : (State.construct c).ovf = false := rfl
@[simp] theorem State.construct_cap (c : Nat) : (State.construct c).cap = c := rfl
@[simp] theorem State.construct_host (c : Nat) : (State.construct c).host = [] := rfl
@[simp] theorem State.construct_transport (c : Nat) : (State.construct c).transport = [] := rfl
@[simp] theorem State.construct_draws (c : Nat) : (State.construct c).draws = 0 := rfl
@[simp] theorem State.construct_trace (c : Nat) : (State.construct c).trace = [] := rfl
@[simp] theorem State.construct_sent (c : Nat) : (State.construct c).sent = [] := rfl

end Sys2Proof.Machine
end

