-- ==== Sys2Proof/Laws/Ops.lean ====
section
/-! SUPPORT. For each shared operation, once, everything it can do; and the views as plain arithmetic. -/

namespace Sys2Proof.Machine

open Sys2Proof.Config (Answer)

variable {TERR : Type}

/-! ## Computations that can stop -/

theorem bind_ok {α β : Type} {e : Except Fault α} {f : α → Except Fault β} {b : β}
    (h : e.bind f = .ok b) : ∃ a, e = .ok a ∧ f a = .ok b := by
  cases e with
  | error x => simp [Except.bind] at h
  | ok a => exact ⟨a, rfl, h⟩

theorem map_ok {α β : Type} {e : Except Fault α} {f : α → β} {b : β}
    (h : e.map f = .ok b) : ∃ a, e = .ok a ∧ f a = b := by
  cases e with
  | error x => simp [Except.map] at h
  | ok a => exact ⟨a, rfl, by simpa [Except.map] using h⟩

/-! ## Views -/

theorem byteIndex_eq (n : Nat) : byteIndex n = n + n / 8 := by
  simp only [byteIndex, cursor]; omega

theorem bitOffset_eq (n : Nat) : bitOffset n = n % 8 := by
  simp only [bitOffset, cursor]; omega

theorem bitOffset_lt (n : Nat) : bitOffset n < 8 := Nat.mod_lt _ (by decide)

/-- `L = 9 * ceil(n / 8)`. -/
theorem paddedLen_eq (n : Nat) : paddedLen n = 9 * ((n + 7) / 8) := by
  simp only [paddedLen, padding, phase]; omega

theorem lenOf_le_paddedLen (n : Nat) : lenOf n ≤ paddedLen n := by
  rw [paddedLen_eq, lenOf]; omega

/-- `len = i` at offset 0 and `i + 1` at the others (R14). -/
theorem lenOf_eq (n : Nat) : lenOf n = byteIndex n + if bitOffset n = 0 then 0 else 1 := by
  rw [byteIndex_eq, bitOffset_eq, lenOf]
  split <;> omega

theorem lenOf_succ (n : Nat) : lenOf (n + 1) = byteIndex n + 2 := by
  rw [byteIndex_eq, lenOf]; omega

/-- The capacity test of PACK is a test on the count (R73). -/
theorem fits_iff_lt_nmax (n cap : Nat) : byteIndex n + 2 ≤ cap ↔ n + 1 ≤ nmax cap := by
  rw [byteIndex_eq, nmax]; omega

/-! ## The buffer's primitives -/

/-- If MemAlloc answers, the index exists and the byte there is 0x00. -/
theorem memAlloc_ok {i : Nat} {s t : State TERR} (h : memAlloc i s = .ok t) :
    i < s.cap ∧ t = s.setMem (Memory.write s.mem i 0x00) := by
  unfold memAlloc at h
  split at h <;> simp_all

/-- If MemRead answers, the index exists and is allocated. -/
theorem memRead_ok {i : Nat} {s : State TERR} {v : Byte} (h : memRead i s = .ok v) :
    i < s.cap ∧ Memory.read s.mem i = some v := by
  unfold memRead at h
  split at h
  · split at h <;> simp_all
  · simp at h

/-- If MemWrite answers, the index exists, is allocated, and holds the byte afterwards. -/
theorem memWrite_ok {i : Nat} {v : Byte} {s t : State TERR} (h : memWrite i v s = .ok t) :
    i < s.cap ∧ (Memory.read s.mem i).isSome ∧ t = s.setMem (Memory.write s.mem i v) := by
  unfold memWrite at h
  split at h
  · split at h <;> simp_all
  · simp at h

/-- If MemAlloc of a range answers, it changed only the buffer, which stays canonical and in bounds. -/
theorem memAllocRange_ok {a k : Nat} {s t : State TERR} (h : memAllocRange a k s = .ok t) :
    (∃ m, t = s.setMem m) ∧ (Memory.wf s.mem → Memory.wf t.mem) ∧
      ((∀ x ∈ s.mem, x.1 < s.cap) → ∀ x ∈ t.mem, x.1 < t.cap) := by
  induction k generalizing a s with
  | zero =>
    obtain rfl : s = t := by simpa [memAllocRange] using h
    exact ⟨⟨s.mem, rfl⟩, id, id⟩
  | succ k ih =>
    obtain ⟨u, h1, h⟩ := bind_ok h
    obtain ⟨ha, rfl⟩ := memAlloc_ok h1
    obtain ⟨⟨m, rfl⟩, hw, hb⟩ := ih h
    refine ⟨⟨m, rfl⟩, fun hs => hw (Memory.wf_write hs _ _), fun hs => hb ?_⟩
    intro x hx
    rcases Memory.mem_write hx with rfl | hx
    · exact ha
    · exact hs x hx

/-- If MemRead of a range answers, it gives as many bytes as were asked for. -/
theorem memReadRange_length {a k : Nat} {s : State TERR} {b : List Byte}
    (h : memReadRange a k s = .ok b) : b.length = k := by
  induction k generalizing a b with
  | zero =>
    obtain rfl : [] = b := by simpa [memReadRange] using h
    rfl
  | succ k ih =>
    obtain ⟨v, _, h⟩ := bind_ok h
    obtain ⟨b', h2, rfl⟩ := map_ok h
    simp [ih h2]

/-- On a buffer laid out from a list, MemAlloc of the range after its end appends zero bytes. -/
theorem memAllocRange_ofBytes {b : List Byte} {k : Nat} {s : State TERR}
    (hm : s.mem = Memory.ofBytes b) (hk : b.length + k ≤ s.cap) :
    memAllocRange b.length k s = .ok (s.setMem (Memory.ofBytes (b ++ List.replicate k 0))) := by
  induction k generalizing b s with
  | zero => simp [memAllocRange, State.setMem, ← hm]
  | succ k ih =>
    have h1 : memAlloc b.length s = .ok (s.setMem (Memory.ofBytes (b ++ [0]))) := by
      rw [memAlloc, if_pos (by omega), hm, Memory.write_ofBytes_end]
    have h2 := ih (b := b ++ [0]) (s := s.setMem (Memory.ofBytes (b ++ [0]))) rfl (by simp; omega)
    rw [List.length_append, List.length_singleton] at h2
    rw [memAllocRange, h1, Except.bind, h2]
    simp [State.setMem, List.replicate_succ]

/-- On a buffer laid out from a list, MemRead of a range gives that part of the list. -/
theorem memReadRange_ofBytes {b : List Byte} {a k : Nat} {s : State TERR}
    (hm : s.mem = Memory.ofBytes b) (hb : a + k ≤ b.length) (hk : a + k ≤ s.cap) :
    memReadRange a k s = .ok ((b.drop a).take k) := by
  induction k generalizing a with
  | zero => simp [memReadRange]
  | succ k ih =>
    have ha : a < b.length := by omega
    have h1 : memRead a s = .ok b[a] := by
      rw [memRead, if_pos (by omega), hm, Memory.read_ofBytes, List.getElem?_eq_getElem ha]
    rw [memReadRange, h1, Except.bind, ih (by omega) (by omega), Except.map,
      List.drop_eq_getElem_cons ha, List.take_succ_cons]

/-! ## Responses, errors, outcomes -/

@[simp] theorem settle_eq_next (e : Except Fault (State TERR)) (t : State TERR) :
    settle e = .next t ↔ e = .ok t := by
  cases e <;> simp [settle]

@[simp] theorem settle_eq_fault (e : Except Fault (State TERR)) (f : Fault) :
    settle e = .fault f ↔ e = .error f := by
  cases e <;> simp [settle]

@[simp] theorem settle_ne_refused (e : Except Fault (State TERR)) (r : Refusal) :
    settle e ≠ .refused r := by
  cases e <;> simp [settle]

/-- An error writes `ovf` if it is BufferOverflow, adds its response to the record, and changes nothing
else (R134). -/
theorem raiseError_eq (i : Instr) (e : Error TERR) (s : State TERR) :
    raiseError i e s =
      { s with
        ovf := match e with
          | .bufferOverflow => true
          | .transportError _ => s.ovf
          | .illegalCommand => s.ovf
        trace := s.trace ++ [.returned i (errorResponse e)] } := by
  cases e <;> rfl

/-! ## The transport -/

/-- If Send answers, the frame is recorded once with the answer, and only the transport's fields and the
list of frames changed. -/
theorem send_ok {frame : List Byte} {s t : State TERR} {a : Answer TERR} (h : send frame s = .ok (a, t)) :
    t.sent = s.sent ++ [(frame, a)] ∧ t.n = s.n ∧ t.mem = s.mem ∧ t.ovf = s.ovf ∧ t.cap = s.cap ∧
      t.host = s.host ∧ t.trace = s.trace ∧ t.transport = s.transport.tail := by
  unfold send at h
  split at h
  · rename_i h1
    simp only [Except.ok.injEq, Prod.mk.injEq] at h
    obtain ⟨rfl, rfl⟩ := h
    simp [h1]
  · simp at h
  · rename_i h1
    simp only [Except.ok.injEq, Prod.mk.injEq] at h
    obtain ⟨rfl, rfl⟩ := h
    simp [h1]

/-- Send fails only because the transport is silent (U3). -/
theorem send_error {frame : List Byte} {s : State TERR} {f : Fault} (h : send frame s = .error f) :
    f = .transportSilent ∧ s.transport.head? = some .silent := by
  unfold send at h
  split at h <;> simp_all

/-- How FLUSH ends: its response joins the record and nothing else changes. -/
theorem finishFlush_eq (L : Nat) (a : Answer TERR) (s : State TERR) :
    ∃ r, finishFlush L a s = respond .flush r s := by
  cases a with
  | ok => exact ⟨_, rfl⟩
  | err e => exact ⟨_, rfl⟩

/-- If the hand-off answers, the block is emptied, the frame was recorded once, and one response joined
the record (R91 to R93). -/
theorem handOff_ok {frame : List Byte} {s t : State TERR} (h : handOff frame s = .ok t) :
    t.n = 0 ∧ t.mem = [] ∧ t.ovf = s.ovf ∧ t.cap = s.cap ∧ t.host = s.host ∧
      (∃ a, t.sent = s.sent ++ [(frame, a)]) ∧ ∃ r, t.trace = s.trace ++ [.returned .flush r] := by
  obtain ⟨⟨a, u⟩, h1, h⟩ := map_ok h
  obtain ⟨hsent, hn, hm, ho, hc, hh, ht, _⟩ := send_ok h1
  obtain ⟨r, hr⟩ := finishFlush_eq frame.length a u
  rw [hr] at h
  subst h
  simp_all

/-! ## The port -/

/-- The machine behind the host's interface is the one over any TERR, at the interface's TERR (R5, R8). -/
theorem exec_eq_operate (i : Instr) (s : State) : exec i s = operate i s := by
  cases i <;> rfl

/-- The step behind the host's interface is the step relation at the interface's TERR (R5, R8). -/
theorem step_eq_stepAt (s : State) : step s = stepAt s := by
  simp only [step, stepAt, stepWith, exec_eq_operate]

/-- A step does nothing, is a hardware reset, or carries out the operation of a command word. -/
theorem step_cases (s : State) :
    (s.host = [] ∧ step s = .next s) ∨
    (∃ rest, s.host = .hardReset :: rest ∧ step s = .next (hardwareReset (takeAction s))) ∨
    (∃ w rest, s.host = .command w :: rest ∧ step s = exec (decode w) (takeAction s)) := by
  unfold step stepWith
  split
  · exact .inl ⟨‹_›, rfl⟩
  · exact .inr (.inl ⟨_, ‹_›, rfl⟩)
  · exact .inr (.inr ⟨_, _, ‹_›, rfl⟩)

/-! ## The operations -/

@[simp] theorem packFits_eq_true (s : State TERR) : packFits s = true ↔ byteIndex s.n + 2 ≤ s.cap :=
  decide_eq_true_iff

@[simp] theorem packFits_eq_false (s : State TERR) : packFits s = false ↔ s.cap < byteIndex s.n + 2 :=
  decide_eq_false_iff_not.trans Nat.not_le

@[simp] theorem flushFits_eq_true (s : State TERR) : flushFits s = true ↔ paddedLen s.n ≤ s.cap :=
  decide_eq_true_iff

@[simp] theorem flushFits_eq_false (s : State TERR) : flushFits s = false ↔ s.cap < paddedLen s.n :=
  decide_eq_false_iff_not.trans Nat.not_le

/-- What an update of the buffer keeps: every field but the buffer, the canonical form, the bounds. -/
def OnlyBuffer (s t : State TERR) : Prop :=
  (∃ m, t = s.setMem m) ∧ (Memory.wf s.mem → Memory.wf t.mem) ∧
    ((∀ y ∈ s.mem, y.1 < s.cap) → ∀ y ∈ t.mem, y.1 < t.cap)

theorem OnlyBuffer.trans {s t u : State TERR} (h : OnlyBuffer s t) (h' : OnlyBuffer t u) :
    OnlyBuffer s u := by
  obtain ⟨⟨m, rfl⟩, hw, hb⟩ := h
  obtain ⟨⟨m', rfl⟩, hw', hb'⟩ := h'
  exact ⟨⟨m', rfl⟩, fun hs => hw' (hw hs), fun hs => hb' (hb hs)⟩

theorem onlyBuffer_write {s : State TERR} {i : Nat} (v : Byte) (h : i < s.cap) :
    OnlyBuffer s (s.setMem (Memory.write s.mem i v)) := by
  refine ⟨⟨_, rfl⟩, fun hw => Memory.wf_write hw _ _, fun hb y hy => ?_⟩
  rcases Memory.mem_write hy with rfl | hy
  · exact h
  · exact hb y hy

theorem memAlloc_onlyBuffer {i : Nat} {s t : State TERR} (h : memAlloc i s = .ok t) : OnlyBuffer s t := by
  obtain ⟨hi, rfl⟩ := memAlloc_ok h
  exact onlyBuffer_write _ hi

theorem memWrite_onlyBuffer {i : Nat} {v : Byte} {s t : State TERR} (h : memWrite i v s = .ok t) :
    OnlyBuffer s t := by
  obtain ⟨hi, _, rfl⟩ := memWrite_ok h
  exact onlyBuffer_write _ hi

theorem writeFirstByte_onlyBuffer {x : Symbol} {s t : State TERR} (h : writeFirstByte x s = .ok t) :
    OnlyBuffer s t := by
  simp only [writeFirstByte] at h
  split at h
  · obtain ⟨u, h1, h2⟩ := bind_ok h
    exact (memAlloc_onlyBuffer h1).trans (memWrite_onlyBuffer h2)
  · obtain ⟨v, _, h2⟩ := bind_ok h
    exact memWrite_onlyBuffer h2

theorem writeSecondByte_onlyBuffer {x : Symbol} {s t : State TERR} (h : writeSecondByte x s = .ok t) :
    OnlyBuffer s t := by
  obtain ⟨u, h1, h2⟩ := bind_ok h
  exact (memAlloc_onlyBuffer h1).trans (memWrite_onlyBuffer h2)

/-- If the buffer part of PACK answers, only the buffer and the count changed, and the buffer stays
canonical and in bounds. -/
theorem appendSymbol_ok {x : Symbol} {s t : State TERR} (h : appendSymbol x s = .ok t) :
    (∃ m, t = { s with n := s.n + 1, mem := m }) ∧ (Memory.wf s.mem → Memory.wf t.mem) ∧
      ((∀ y ∈ s.mem, y.1 < s.cap) → ∀ y ∈ t.mem, y.1 < t.cap) := by
  obtain ⟨u, h1, rfl⟩ := map_ok h
  obtain ⟨v, h1, h2⟩ := bind_ok h1
  obtain ⟨⟨m, rfl⟩, hw, hb⟩ := (writeFirstByte_onlyBuffer h1).trans (writeSecondByte_onlyBuffer h2)
  exact ⟨⟨m, rfl⟩, hw, hb⟩

/-- What a next state of PACK is: a BufferOverflow, or the symbol appended with response Ok. -/
theorem execPack_cases {c : Bit} {d : Byte} {s t : State TERR} (h : execPack c d s = .next t) :
    ((s.ovf = true ∨ packFits s = false) ∧ t = raiseError (.pack c d) .bufferOverflow s) ∨
    (s.ovf = false ∧ packFits s = true ∧
      ∃ u, appendSymbol ⟨c, d⟩ s = .ok u ∧ t = respond (.pack c d) (okResponse 0) u) := by
  unfold execPack at h
  split at h
  · simp_all
  · split at h
    · right
      obtain ⟨u, h1, rfl⟩ := map_ok ((settle_eq_next _ _).1 h)
      exact ⟨by simp_all, ‹_›, u, h1, rfl⟩
    · simp_all

/-- A frame that is formed has the padded length. -/
theorem formFrame_length {s : State TERR} {frame : List Byte} (h : formFrame s = .ok frame) :
    frame.length = paddedLen s.n := by
  obtain ⟨u, _, h⟩ := bind_ok h
  exact memReadRange_length h

/-- What a next state of FLUSH is: a BufferOverflow, the empty no-op, or a frame handed over. -/
theorem execFlush_cases {s t : State TERR} (h : execFlush s = .next t) :
    ((s.ovf = true ∨ flushFits s = false) ∧ t = raiseError .flush .bufferOverflow s) ∨
    (s.ovf = false ∧ flushFits s = true ∧ paddedLen s.n = 0 ∧
      t = respond .flush (okResponse 0) s) ∨
    (s.ovf = false ∧ flushFits s = true ∧ paddedLen s.n ≠ 0 ∧
      ∃ frame, formFrame s = .ok frame ∧ frame.length = paddedLen s.n ∧ handOff frame s = .ok t) := by
  unfold execFlush at h
  split at h
  · simp_all
  · split at h
    · split at h
      · simp_all
      · right; right
        obtain ⟨frame, h1, h2⟩ := bind_ok ((settle_eq_next _ _).1 h)
        exact ⟨by simp_all, ‹_›, ‹_›, frame, h1, formFrame_length h1, h2⟩
    · simp_all

end Sys2Proof.Machine
end

