-- ==== Sys2Proof/Laws/Encoder.lean ====
section
/-! SUPPORT. The bits of the stream encoder: what each bit of each byte of an encoding is. -/

namespace Sys2Proof.Machine

@[simp] theorem length_encodeStream (x : List Symbol) :
    (encodeStream x).length = lenOf x.length := by
  simp [encodeStream]

@[simp] theorem encodeStream_nil : encodeStream [] = [] := by
  rw [← List.length_eq_zero_iff, length_encodeStream]
  decide

/-- Byte `j` of an encoding. -/
theorem getElem?_encodeStream (x : List Symbol) (j : Nat) :
    (encodeStream x)[j]? = if j < lenOf x.length then some (packedByte x j) else none := by
  simp only [encodeStream, List.getElem?_map]
  split <;> rename_i h
  · simp [List.getElem?_range h]
  · simp [h]

/-- Bit `t` of the byte of bits `f`. -/
theorem getLsbD_byteOfBits (f : Nat → Bool) (t : Nat) (h : t < 8) :
    (byteOfBits f).getLsbD t = f (7 - t) := by
  simp [byteOfBits, h]

/-- Bit `t` of byte `j` of an encoding is stream bit `8j + 7 - t`. -/
theorem getLsbD_packedByte (x : List Symbol) (j t : Nat) (h : t < 8) :
    (packedByte x j).getLsbD t = symbolBit x (8 * j + (7 - t)) := by
  rw [packedByte, getLsbD_byteOfBits _ _ h]

/-- Two bytes are equal when their eight bits are, counted as the stream counts them. -/
theorem byte_ext {a b : Byte} (h : ∀ t, t < 8 → a.getLsbD (7 - t) = b.getLsbD (7 - t)) : a = b := by
  refine BitVec.eq_of_getLsbD_eq fun k hk => ?_
  have := h (7 - k) (by omega)
  rwa [show 7 - (7 - k) = k by omega] at this

/-- The bits of a symbol's window: `sym` sits at bits `15 - o` down to `7 - o` (R56). -/
theorem getLsbD_window (o : Nat) (x : Symbol) (k : Nat) :
    (window o x).getLsbD k =
      (decide (k < 16) && !decide (k < 7 - o) && (symbolValue x).getLsbD (k - (7 - o))) := by
  rw [window, BitVec.getLsbD_shiftLeft, BitVec.getLsbD_setWidth]
  by_cases h : k < 16
  · have : k - (7 - o) < 16 := by omega
    simp [h, this]
  · simp [h]

/-- The bits of `W[15:8]`, counted from bit 7 down: symbol bits from offset `o` on. -/
theorem getLsbD_windowHigh (o : Nat) (x : Symbol) (t : Nat) (ho : o < 8) (ht : t < 8) :
    (windowHigh o x).getLsbD (7 - t) =
      (decide (o ≤ t) && (symbolValue x).getLsbD (8 - (t - o))) := by
  rw [windowHigh, BitVec.getLsbD_extractLsb', getLsbD_window]
  by_cases h : o ≤ t
  · have h1 : 8 + (7 - t) - (7 - o) = 8 - (t - o) := by omega
    have h2 : ¬ 8 + (7 - t) < 7 - o := by omega
    have h3 : 7 - t < 8 := by omega
    have h4 : 8 + (7 - t) < 16 := by omega
    simp [h, h1, h2, h3, h4]
  · have h2 : ¬ 8 + (7 - t) < 7 - o := by omega
    have h5 : (symbolValue x).getLsbD (8 + (7 - t) - (7 - o)) = false :=
      BitVec.getLsbD_of_ge _ _ (by omega)
    simp [h, h5]

/-- The bits of `W[7:0]`, counted from bit 7 down: the symbol's last `o + 1` bits, then zeros. -/
theorem getLsbD_windowLow (o : Nat) (x : Symbol) (t : Nat) (ho : o < 8) (ht : t < 8) :
    (windowLow o x).getLsbD (7 - t) =
      (decide (t ≤ o) && (symbolValue x).getLsbD (o - t)) := by
  rw [windowLow, BitVec.getLsbD_extractLsb', getLsbD_window]
  by_cases h : t ≤ o
  · have h1 : 0 + (7 - t) - (7 - o) = o - t := by omega
    have h2 : ¬ 0 + (7 - t) < 7 - o := by omega
    have h3 : 7 - t < 8 := by omega
    have h4 : 0 + (7 - t) < 16 := by omega
    simp only [h1, h2, h3, h4, h]
    simp
  · have h2 : 0 + (7 - t) < 7 - o := by omega
    simp only [h, h2]
    simp

/-- A stream has no bit set beyond its end. -/
theorem symbolBit_of_ge (x : List Symbol) (k : Nat) (h : 9 * x.length ≤ k) : symbolBit x k = false := by
  have : x.length ≤ k / 9 := by omega
  simp [symbolBit, List.getElem?_eq_none this]

/-- The stream of an extended list begins with the stream of the list. -/
theorem symbolBit_append_left (x y : List Symbol) (k : Nat) (h : k < 9 * x.length) :
    symbolBit (x ++ y) k = symbolBit x k := by
  have : k / 9 < x.length := by omega
  simp only [symbolBit, List.getElem?_append_left this]

/-- The stream of an extended list goes on with the stream of the extension. -/
theorem symbolBit_append_right (x y : List Symbol) (k : Nat) :
    symbolBit (x ++ y) (9 * x.length + k) = symbolBit y k := by
  have h1 : (9 * x.length + k) / 9 = x.length + k / 9 := by omega
  have h2 : (9 * x.length + k) % 9 = k % 9 := by omega
  simp only [symbolBit, h1, h2, List.getElem?_append_right (Nat.le_add_right _ _),
    Nat.add_sub_cancel_left]

/-- The stream of one symbol is its nine bits, the control bit first. -/
theorem symbolBit_singleton (x : Symbol) (k : Nat) (h : k < 9) :
    symbolBit [x] k = (symbolValue x).getLsbD (8 - k) := by
  have h1 : k / 9 = 0 := by omega
  have h2 : k % 9 = k := by omega
  simp [symbolBit, h1, h2]

/-- The filler symbol has no bit set. -/
@[simp] theorem symbolValue_fill : symbolValue Config.fill = 0 := by decide

end Sys2Proof.Machine
end

