-- ==== Sys2Proof/Laws/PerInstr.lean ====
section
/-! SUPPORT. Facts about every operation as syntax, one lemma per constructor: its canonical word selects its
row of spec/30_encoding.md R58, and no other row. -/

namespace Sys2Proof.Laws

/-- The match value of an operation's row (R58). -/
def rowMatch : Instr → CommandWord
  | .pack _ _ => packMatch
  | .flush => flushMatch
  | .reset => resetMatch
  | .reserved => reservedMatch

/-- Masking the canonical word of an operation gives its row's match value. -/
def EncodeSelectsRow.Statement (i : Instr) : Prop := encode i &&& opMask = rowMatch i

theorem EncodeSelectsRow.pack (c : Bit) (d : Byte) : EncodeSelectsRow.Statement (.pack c d) := by
  ext k hk
  simp [encode, opMask, rowMatch, packMatch]
  interval_cases k <;> simp

theorem EncodeSelectsRow.flush : EncodeSelectsRow.Statement .flush := by
  unfold EncodeSelectsRow.Statement
  decide

theorem EncodeSelectsRow.reset : EncodeSelectsRow.Statement .reset := by
  unfold EncodeSelectsRow.Statement
  decide

theorem EncodeSelectsRow.reserved : EncodeSelectsRow.Statement .reserved := by
  unfold EncodeSelectsRow.Statement
  decide

end Sys2Proof.Laws
end

