-- ==== Sys2Proof/Laws/Stream.lean ====
section
/-! SUPPORT. What the buffer operations of PACK and FLUSH do to a buffer that holds a list of symbols. -/

namespace Sys2Proof.Machine

/-! ## The encoding of a list with one more symbol -/

/-- Byte `j` of the encoding of a list with one more symbol, where byte `j` lies below the cursor's. -/
theorem packedByte_snoc_below (x : List Symbol) (y : Symbol) (j : Nat) (h : j < byteIndex x.length) :
    packedByte (x ++ [y]) j = packedByte x j := by
  rw [byteIndex_eq] at h
  refine byte_ext fun t ht => ?_
  rw [getLsbD_packedByte _ _ _ (by omega), getLsbD_packedByte _ _ _ (by omega),
    symbolBit_append_left]
  omega

/-- The byte at the cursor takes the symbol's first bits (R56). -/
theorem packedByte_snoc_first (x : List Symbol) (y : Symbol) :
    packedByte (x ++ [y]) (byteIndex x.length) =
      packedByte x (byteIndex x.length) ||| windowHigh (bitOffset x.length) y := by
  refine byte_ext fun t ht => ?_
  have ho := bitOffset_lt x.length
  have hc : 8 * byteIndex x.length + bitOffset x.length = 9 * x.length := by
    rw [byteIndex_eq, bitOffset_eq]; omega
  rw [BitVec.getLsbD_or, getLsbD_packedByte _ _ _ (by omega), getLsbD_packedByte _ _ _ (by omega),
    getLsbD_windowHigh _ _ _ ho ht, show 7 - (7 - t) = t by omega]
  by_cases h : bitOffset x.length ≤ t
  · rw [show 8 * byteIndex x.length + t = 9 * x.length + (t - bitOffset x.length) by omega,
      symbolBit_append_right, symbolBit_of_ge x _ (by omega), symbolBit_singleton _ _ (by omega)]
    simp [h]
  · rw [symbolBit_append_left _ _ _ (by omega)]
    simp [h]

/-- The next byte takes the symbol's last bits (R56). -/
theorem packedByte_snoc_second (x : List Symbol) (y : Symbol) :
    packedByte (x ++ [y]) (byteIndex x.length + 1) = windowLow (bitOffset x.length) y := by
  refine byte_ext fun t ht => ?_
  have ho := bitOffset_lt x.length
  have hc : 8 * byteIndex x.length + bitOffset x.length = 9 * x.length := by
    rw [byteIndex_eq, bitOffset_eq]; omega
  rw [getLsbD_packedByte _ _ _ (by omega), getLsbD_windowLow _ _ _ ho ht,
    show 8 * (byteIndex x.length + 1) + (7 - (7 - t)) =
      9 * x.length + (8 + t - bitOffset x.length) by omega, symbolBit_append_right]
  by_cases h : t ≤ bitOffset x.length
  · rw [symbolBit_singleton _ _ (by omega),
      show 8 - (8 + t - bitOffset x.length) = bitOffset x.length - t by omega]
    simp [h]
  · rw [symbolBit_of_ge _ _ (by simp; omega)]
    simp [h]

/-- The byte at the cursor of a list that ends on a byte boundary is zero. -/
theorem packedByte_at_end (x : List Symbol) (h : bitOffset x.length = 0) :
    packedByte x (byteIndex x.length) = 0 := by
  refine byte_ext fun t ht => ?_
  rw [bitOffset_eq] at h
  rw [byteIndex_eq, getLsbD_packedByte _ _ _ (by omega), symbolBit_of_ge x _ (by omega)]
  simp

/-- The encoding of a list with one more symbol, off a byte boundary: the last byte takes the symbol's
first bits and one byte is new (R36). -/
theorem encodeStream_snoc_inside (x : List Symbol) (y : Symbol) (h : bitOffset x.length ≠ 0) :
    encodeStream (x ++ [y]) =
      (encodeStream x).set (byteIndex x.length)
        (packedByte x (byteIndex x.length) ||| windowHigh (bitOffset x.length) y) ++
      [windowLow (bitOffset x.length) y] := by
  have hl : lenOf x.length = byteIndex x.length + 1 := by rw [lenOf_eq, if_neg h]
  refine List.ext_getElem? fun j => ?_
  rw [getElem?_encodeStream, List.length_append, List.length_singleton, lenOf_succ,
    List.getElem?_append, List.length_set, length_encodeStream, hl, List.getElem?_set,
    length_encodeStream, hl, getElem?_encodeStream, hl]
  rcases Nat.lt_trichotomy j (byteIndex x.length) with hj | rfl | hj
  · rw [if_pos (by omega), if_pos (by omega), if_neg (by omega), if_pos (by omega),
      packedByte_snoc_below _ _ _ hj]
  · rw [if_pos (by omega), if_pos (by omega), if_pos rfl, if_pos (by omega), packedByte_snoc_first]
  · rcases Nat.eq_or_lt_of_le hj with rfl | hj
    · rw [if_pos (by omega), if_neg (by omega), packedByte_snoc_second]
      simp
    · rw [if_neg (by omega), if_neg (by omega), List.getElem?_eq_none (by simp; omega)]

/-- The encoding of a list with one more symbol, on a byte boundary: two bytes are new (R36). -/
theorem encodeStream_snoc_boundary (x : List Symbol) (y : Symbol) (h : bitOffset x.length = 0) :
    encodeStream (x ++ [y]) = encodeStream x ++ [windowHigh 0 y, windowLow 0 y] := by
  have hl : lenOf x.length = byteIndex x.length := by rw [lenOf_eq, if_pos h]; rfl
  refine List.ext_getElem? fun j => ?_
  rw [getElem?_encodeStream, List.length_append, List.length_singleton, lenOf_succ,
    List.getElem?_append, length_encodeStream, hl, getElem?_encodeStream, hl]
  rcases Nat.lt_trichotomy j (byteIndex x.length) with hj | rfl | hj
  · rw [if_pos (by omega), if_pos (by omega), if_pos (by omega), packedByte_snoc_below _ _ _ hj]
  · rw [if_pos (by omega), if_neg (by omega), packedByte_snoc_first, packedByte_at_end x h, h]
    simp
  · rcases Nat.eq_or_lt_of_le hj with rfl | hj
    · rw [if_pos (by omega), if_neg (by omega), packedByte_snoc_second, h]
      simp
    · rw [if_neg (by omega), if_neg (by omega), List.getElem?_eq_none (by simp; omega)]

/-! ## The buffer operations on a buffer that holds symbols -/

/-- On a buffer that holds `x`, the buffer part of PACK answers whenever the symbol fits, and the buffer
then holds `x` and the symbol. -/
theorem appendSymbol_of_holds {s : State} {x : List Symbol} (y : Symbol) (h : Holds s x)
    (hfit : byteIndex s.n + 2 ≤ s.cap) :
    appendSymbol y s = .ok { s with
      n := s.n + 1, mem := Memory.ofBytes (encodeStream (x ++ [y])) } := by
  obtain ⟨hn, hm⟩ := h
  have hlen : (encodeStream x).length = lenOf s.n := by rw [length_encodeStream, hn]
  have first : writeFirstByte y s = .ok (s.setMem (Memory.ofBytes
      ((encodeStream (x ++ [y])).take (byteIndex s.n + 1)))) := by
    simp only [writeFirstByte]
    split
    · rename_i ho
      have hl : (encodeStream x).length = byteIndex s.n := by rw [hlen, lenOf_eq, if_pos ho]; rfl
      have h1 : memAlloc (byteIndex s.n) s = .ok (s.setMem (Memory.ofBytes (encodeStream x ++ [0]))) := by
        rw [memAlloc, if_pos (by omega), hm, ← hl, Memory.write_ofBytes_end]
      rw [h1, Except.bind, memWrite, State.setMem_cap, if_pos (by omega)]
      simp only [State.setMem_mem, Memory.read_ofBytes]
      rw [List.getElem?_append_right (by omega), hl, Nat.sub_self]
      simp only [List.getElem?_cons_zero]
      rw [Memory.write_ofBytes_set _ _ _ (by simp [hl]), encodeStream_snoc_boundary x y (hn ▸ ho),
        List.take_append, hl, Nat.add_sub_cancel_left, List.take_of_length_le (by omega),
        List.set_append_right _ _ (by omega), hl, Nat.sub_self, ho]
      rfl
    · rename_i ho
      have hl : (encodeStream x).length = byteIndex s.n + 1 := by rw [hlen, lenOf_eq, if_neg ho]
      have hr : Memory.read s.mem (byteIndex s.n) = some (packedByte x (byteIndex s.n)) := by
        rw [hm, Memory.read_ofBytes, getElem?_encodeStream, if_pos]
        rw [← length_encodeStream]; omega
      have h1 : memRead (byteIndex s.n) s = .ok (packedByte x (byteIndex s.n)) := by
        rw [memRead, if_pos (by omega), hr]
      rw [h1, Except.bind, memWrite, if_pos (by omega), hr]
      simp only
      rw [hm, Memory.write_ofBytes_set _ _ _ (by omega), encodeStream_snoc_inside x y (hn ▸ ho),
        List.take_append_of_le_length (by simp [hl]), List.take_of_length_le (by simp [hl]), hn]
  have htake : ((encodeStream (x ++ [y])).take (byteIndex s.n + 1)).length = byteIndex s.n + 1 := by
    rw [List.length_take, length_encodeStream, List.length_append, List.length_singleton, hn, lenOf_succ]
    omega
  have hlast : encodeStream (x ++ [y]) =
      (encodeStream (x ++ [y])).take (byteIndex s.n + 1) ++ [windowLow (bitOffset s.n) y] := by
    conv_lhs => rw [← List.take_append_drop (byteIndex s.n + 1) (encodeStream (x ++ [y]))]
    congr 1
    refine List.ext_getElem? fun j => ?_
    rw [List.getElem?_drop, getElem?_encodeStream, List.length_append, List.length_singleton, hn,
      lenOf_succ]
    rcases j with _ | j
    · rw [if_pos (by omega), Nat.add_zero, ← hn, packedByte_snoc_second]
      rfl
    · rw [if_neg (by omega)]
      simp
  have second : ∀ b, b.length = byteIndex s.n + 1 →
      writeSecondByte y (s.setMem (Memory.ofBytes b)) = .ok (s.setMem (Memory.ofBytes
        (b ++ [windowLow (bitOffset s.n) y]))) := by
    intro b hb
    simp only [writeSecondByte, State.setMem_n]
    have h1 : memAlloc (byteIndex s.n + 1) (s.setMem (Memory.ofBytes b)) =
        .ok (s.setMem (Memory.ofBytes (b ++ [0]))) := by
      rw [memAlloc, State.setMem_cap, if_pos (by omega), State.setMem_mem, ← hb,
        Memory.write_ofBytes_end]
      rfl
    rw [h1, Except.bind, memWrite, State.setMem_cap, if_pos (by omega)]
    simp only [State.setMem_mem, Memory.read_ofBytes]
    rw [List.getElem?_append_right (by omega), hb, Nat.sub_self]
    simp only [List.getElem?_cons_zero]
    rw [Memory.write_ofBytes_set _ _ _ (by simp [hb]), List.set_append_right _ _ (by omega), hb,
      Nat.sub_self]
    rfl
  rw [appendSymbol, first, Except.bind, second _ htake, ← hlast]
  rfl

/-- The stream of fillers has no bit set. -/
theorem symbolBit_replicate_fill (k j : Nat) :
    symbolBit (List.replicate k Config.fill) j = false := by
  simp only [symbolBit, List.getElem?_replicate]
  split <;> rename_i h
  · split at h
    · obtain rfl := Option.some.inj h
      simp
    · simp at h
  · rfl

/-- A transaction with its fillers is a whole number of groups. -/
theorem length_withFillers (x : List Symbol) :
    (withFillers x).length = 8 * ((x.length + 7) / 8) := by
  simp only [withFillers, List.length_append, List.length_replicate, padding, phase]
  omega

/-- The frame is the buffer followed by zero bytes (R87). -/
theorem encodeStream_withFillers (x : List Symbol) :
    encodeStream (withFillers x) =
      encodeStream x ++ List.replicate (paddedLen x.length - lenOf x.length) 0 := by
  have hL : lenOf (withFillers x).length = paddedLen x.length := by
    rw [length_withFillers, paddedLen_eq, lenOf]; omega
  have hle := lenOf_le_paddedLen x.length
  have hbyte : ∀ j, packedByte (withFillers x) j = packedByte x j := by
    intro j
    refine byte_ext fun t ht => ?_
    rw [getLsbD_packedByte _ _ _ (by omega), getLsbD_packedByte _ _ _ (by omega), withFillers]
    generalize 8 * j + (7 - (7 - t)) = k
    by_cases h : k < 9 * x.length
    · rw [symbolBit_append_left _ _ _ h]
    · obtain ⟨m, rfl⟩ : ∃ m, k = 9 * x.length + m := ⟨k - 9 * x.length, by omega⟩
      rw [symbolBit_append_right, symbolBit_replicate_fill, symbolBit_of_ge _ _ (by omega)]
  refine List.ext_getElem? fun j => ?_
  rw [getElem?_encodeStream, hL, List.getElem?_append, length_encodeStream, getElem?_encodeStream,
    List.getElem?_replicate, hbyte]
  by_cases h1 : j < lenOf x.length
  · rw [if_pos (by omega), if_pos h1, if_pos h1]
  · by_cases h2 : j < paddedLen x.length
    · rw [if_pos h2, if_neg h1, if_pos (by omega)]
      congr 1
      refine byte_ext fun t ht => ?_
      rw [getLsbD_packedByte _ _ _ (by omega), symbolBit_of_ge]
      · simp
      · rw [lenOf] at h1; omega
    · rw [if_neg h2, if_neg h1, if_neg (by omega)]

/-- On a buffer that holds `x`, FLUSH forms the encoding of `x` and its fillers whenever it fits. -/
theorem formFrame_of_holds {s : State} {x : List Symbol} (h : Holds s x)
    (hfit : paddedLen s.n ≤ s.cap) : formFrame s = .ok (encodeStream (withFillers x)) := by
  obtain ⟨hn, hm⟩ := h
  have hlen : (encodeStream x).length = lenOf s.n := by rw [length_encodeStream, hn]
  have hle := lenOf_le_paddedLen s.n
  simp only [formFrame]
  rw [← hlen, memAllocRange_ofBytes hm (by omega), Except.bind,
    memReadRange_ofBytes rfl (by rw [List.length_append, List.length_replicate]; omega)
      (by simpa using hfit), encodeStream_withFillers, hn]
  rw [List.drop_zero, List.take_of_length_le (by rw [List.length_append, List.length_replicate]; omega),
    hlen]

end Sys2Proof.Machine
end

