-- ==== Sys2Proof/Tests/Slice0.lean ====
section
/-! SUPPORT. The model's own tests: expected values are the spec's vectors (spec/95_test_vectors.md) or hand
calculation from the rule named. The second half shows, for every obligation with hypotheses, a concrete state
and operands that meet them. -/

namespace Sys2Proof.Tests

open Sys2Proof.Machine
open Sys2Proof.Config (Answer Reply)

/-! ## Helpers -/

/-- A state at capacity `cap` whose buffer holds the symbols `x`, with the transport's replies fixed. -/
def held (cap : Nat) (x : List Symbol) (replies : List Reply) : State :=
  { State.construct cap with
    n := x.length, mem := Memory.ofBytes (encodeStream x), transport := replies }

theorem holds_held (cap : Nat) (x : List Symbol) (replies : List Reply) :
    Holds (held cap x replies) x := ⟨rfl, rfl⟩

/-- `k` times the symbol `(1, 0xFF)`. -/
def ones (k : Nat) : List Symbol := List.replicate k ⟨1, 0xFF⟩

/-- The bytes of the buffer in a next state. -/
def bytesAfter : Host.Outcome State Fault Refusal → Option (List Byte)
  | .next t => some t.mem.bytes
  | .fault _ => none
  | .refused _ => none

/-- The last entry of the record in a next state. -/
def lastEvent : Host.Outcome State Fault Refusal → Option Event
  | .next t => t.trace.getLast?
  | .fault _ => none
  | .refused _ => none

/-- The frames handed over in a next state. -/
def sentAfter : Host.Outcome State Fault Refusal → Option (List (List Byte × Answer))
  | .next t => some t.sent
  | .fault _ => none
  | .refused _ => none

/-- The count, the flag and the capacity in a next state. -/
def blockAfter : Host.Outcome State Fault Refusal → Option (Nat × Bool × Nat)
  | .next t => some (t.n, t.ovf, t.cap)
  | .fault _ => none
  | .refused _ => none

/-! ## Well-formedness: the check refuses what is no command word (R63) -/

theorem test_word_of_twelve_bits_refused : wellFormedWord 0x800 = false := by decide

theorem test_widest_word_accepted : wellFormedWord 0x7FF = true := by decide

theorem test_decodeNumber_rejects_by_name :
    decodeNumber 0x800 = .error .widerThanCommandWord := by rfl

/-! ## Decoding: words written out bit by bit from R57 and R58 -/

theorem test_decode_pack : decode 0b00110100101#11 = .pack 1 0xA5 := by decide

theorem test_decode_pack_control_zero : decode 0b00001111110#11 = .pack 0 0x7E := by decide

theorem test_decode_flush_ignores_low_bits : decode 0b01110100101#11 = .flush := by decide

theorem test_decode_reset_ignores_low_bits : decode 0b10111111111#11 = .reset := by decide

theorem test_decode_reserved : decode 0b11000000000#11 = .reserved := by decide

theorem test_encode_pack : encode (.pack 1 0xA5) = 0b00110100101#11 := by decide

theorem test_encode_others :
    encode .flush = 0x200#11 ∧ encode .reset = 0x400#11 ∧ encode .reserved = 0x600#11 := by decide

theorem test_table_word : decodeTableWord 16 0x1A5 = some (.pack 1 0xA5) := by decide

/-! ## PACK (vectors K1, K2, K4) -/

/-- K1, row p = 3: `[00 00 00 1A 50]`. -/
theorem test_pack_at_phase_three :
    bytesAfter (exec (.pack 1 0xA5) (held 18 (List.replicate 3 Config.fill) [])) =
      some [0x00, 0x00, 0x00, 0x1A, 0x50] := by decide

/-- K4, row CAP = 3: the third PACK overflows and byte 2 is left as it was. -/
theorem test_pack_overflow_writes_nothing :
    blockAfter (exec (.pack 1 0x80) (held 3 (List.replicate 2 ⟨1, 0x80⟩) [])) = some (2, true, 3) ∧
    bytesAfter (exec (.pack 1 0x80) (held 3 (List.replicate 2 ⟨1, 0x80⟩) [])) =
      some [0xC0, 0x60, 0x00] := by decide

/-! ## FLUSH (vectors F1, F4, F7) -/

/-- F1, m = 7: one filler. -/
theorem test_flush_pads_one_filler :
    sentAfter (exec .flush (held 9 (ones 7) [.answers .ok])) =
      some [([0xFF, 0xFF, 0xFF, 0xFF, 0xFF, 0xFF, 0xFF, 0xFE, 0x00], .ok)] ∧
    lastEvent (exec .flush (held 9 (ones 7) [.answers .ok])) =
      some (.returned .flush ⟨.ok, 9, none⟩) := by decide

/-- F4: TransportError with the transport's own value, and the state is reset. -/
theorem test_flush_transport_error :
    lastEvent (exec .flush (held 9 [⟨0, 0x2A⟩, ⟨1, 0x00⟩, ⟨1, 0x12⟩] [.answers (.err .first)])) =
      some (.returned .flush ⟨.transportError, 0, some .first⟩) ∧
    blockAfter (exec .flush (held 9 [⟨0, 0x2A⟩, ⟨1, 0x00⟩, ⟨1, 0x12⟩] [.answers (.err .first)])) =
      some (0, false, 9) := by decide

/-- F4 with the natural numbers as TERR: the value 7 comes back unchanged. -/
theorem test_flush_transport_error_any_terr :
    (match operate .flush { State.construct 9 Nat with
        n := 1, mem := [(0, 0x15), (1, 0x00)], transport := [.answers (.err 7)] } with
      | .next t => t.trace
      | .fault _ => []
      | .refused _ => []) = [.returned .flush ⟨.transportError, 0, some 7⟩] := by decide

/-! ## RESET and the reserved code (vectors L1, L2) -/

theorem test_reset_leaves_faulted :
    blockAfter (exec .reset { held 9 (ones 8) [] with ovf := true }) = some (0, false, 9) := by decide

theorem test_reserved_in_faulted :
    lastEvent (exec .reserved { held 9 (ones 8) [] with ovf := true }) =
      some (.returned .reserved ⟨.illegalCommand, 0, none⟩) ∧
    blockAfter (exec .reserved { held 9 (ones 8) [] with ovf := true }) = some (8, true, 9) := by decide

/-! ## The step, and the encoder (vectors E1) -/

theorem test_step_from_reset_runs_issued_word :
    bytesAfter (step (State.reset.withFetchWord 16 0x001)) = some [0x00, 0x80] := by decide

theorem test_hardware_reset_step :
    blockAfter (step { held 9 (ones 3) [] with host := [.hardReset] }) = some (0, false, 9) := by decide

theorem test_encode8_row_one :
    (encode8 #v[⟨0, 0x2A⟩, ⟨1, 0x00⟩, ⟨1, 0x12⟩, ⟨1, 0x34⟩, ⟨1, 0xEF⟩, ⟨0, 0x2C⟩, ⟨1, 0xF8⟩,
      ⟨1, 0x1F⟩]).toList = [0x15, 0x40, 0x22, 0x53, 0x4F, 0x78, 0xB3, 0xF1, 0x1F] := by decide

theorem test_decode8_row_four :
    (decode8 #v[0x12, 0x34, 0x56, 0x78, 0x9A, 0xBC, 0xDE, 0xF0, 0x0F]).toList =
      [⟨0, 0x24⟩, ⟨0, 0xD1⟩, ⟨0, 0xB3⟩, ⟨1, 0x89⟩, ⟨1, 0x57⟩, ⟨1, 0x37⟩, ⟨1, 0x78⟩, ⟨0, 0x0F⟩] := by
  decide

/-! ## Witnesses: states that meet the hypotheses of the obligations -/

/-- A well-formed state one symbol below the limit of capacity 18. -/
theorem wf_fifteen : WF (held 18 (ones 15) []) :=
  ⟨by decide, by decide, by decide, _, holds_held _ _ _⟩

/-- A well-formed state at the limit of capacity 18. -/
theorem wf_sixteen : WF (held 18 (ones 16) []) :=
  ⟨by decide, by decide, by decide, _, holds_held _ _ _⟩

/-- A well-formed state at capacity 17 whose padded length does not fit. -/
theorem wf_seventeen : WF (held 17 (ones 9) []) :=
  ⟨by decide, by decide, by decide, _, holds_held _ _ _⟩

/-- A well-formed state with three symbols and the transport's reply fixed. -/
theorem wf_three (r : Reply) : WF (held 9 (ones 3) [r]) :=
  ⟨show 3 ≤ nmax 9 by decide, show (Memory.ofBytes (encodeStream (ones 3))).length = lenOf 3 by decide,
    show lenOf 3 ≤ 9 by decide, ones 3, holds_held _ _ _⟩

/-- A well-formed aligned state with one group and the transport's reply fixed. -/
theorem wf_eight (r : Reply) : WF (held 9 (ones 8) [r]) :=
  ⟨show 8 ≤ nmax 9 by decide, show (Memory.ofBytes (encodeStream (ones 8))).length = lenOf 8 by decide,
    show lenOf 8 ≤ 9 by decide, ones 8, holds_held _ _ _⟩

theorem wf_reset : WF State.reset := ⟨by decide, by decide, by decide, [], by rfl, by decide⟩

theorem witness_DecodeInvertsEncode : (Instr.pack 1 0xA5).wellFormed = true := by decide

theorem witness_WordSelectsExactlyItsRow :
    0x1FF#11 &&& 0x600#11 = 0x000#11 ∧ 0x3FF#11 &&& 0x600#11 = 0x200#11 ∧
      0x5FF#11 &&& 0x600#11 = 0x400#11 ∧ 0x7FF#11 &&& 0x600#11 = 0x600#11 := by decide

theorem witness_IgnoredBitsHaveNoEffect :
    512 ≤ (0x3A5#11).toNat ∧ (0x3A5#11).toNat / 512 = (0x200#11).toNat / 512 := by decide

theorem witness_WiderNumberIsNoCommand : 2 ^ 11 ≤ 0x800 % 2 ^ 16 := by decide

theorem witness_StepRunsDecodedCommand :
    (issue 0x1A5#11 State.reset).host = [.command 0x1A5#11] := by decide

theorem witness_IdleBlockStays : State.reset.host = [] := by decide

theorem witness_StepKeepsCapacityAndPast : ∃ t, step (issue 0x1A5#11 State.reset) = .next t := ⟨_, rfl⟩

theorem witness_EveryResetGivesInitialState :
    { held 9 (ones 3) [] with host := [.hardReset] }.host = .hardReset :: [] ∧
      Initial (State.construct 9) := ⟨rfl, rfl, rfl, rfl⟩

theorem witness_HardwareResetEmptiesBlock :
    { held 9 (ones 3) [] with host := [.hardReset] }.host = .hardReset :: [] := rfl

theorem witness_ReservedCodeIsIllegalCommand :
    (issue 0x7FF#11 State.reset).host = .command 0x7FF#11 :: [] ∧
      0x7FF#11 &&& 0x600#11 = 0x600#11 := by decide

theorem witness_PackAppendsSymbolBits :
    WF (held 18 (ones 15) []) ∧ Holds (held 18 (ones 15) []) (ones 15) ∧
      (held 18 (ones 15) []).ovf = false ∧ byteIndex (held 18 (ones 15) []).n + 2 ≤ 18 :=
  ⟨wf_fifteen, holds_held _ _ _, rfl, by decide⟩

theorem witness_PackWritesTableBytes :
    WF (held 18 (ones 15) []) ∧ (held 18 (ones 15) []).ovf = false ∧
      (held 18 (ones 15) []).n = 8 * 1 + 7 ∧ 9 * 1 + 7 + 2 ≤ (held 18 (ones 15) []).cap :=
  ⟨wf_fifteen, rfl, rfl, by decide⟩

theorem witness_PackWritesTableBytes_phase_zero :
    WF State.reset ∧ State.reset.ovf = false ∧ State.reset.n = 8 * 0 + 0 ∧
      9 * 0 + 0 + 2 ≤ State.reset.cap :=
  ⟨wf_reset, rfl, rfl, by decide⟩

theorem witness_PackOverflowsExactlyAtLimit :
    WF (held 18 (ones 16) []) ∧ (held 18 (ones 16) []).ovf = false ∧
      (held 18 (ones 16) []).cap < byteIndex (held 18 (ones 16) []).n + 2 :=
  ⟨wf_sixteen, rfl, by decide⟩

theorem witness_PackOverflowsExactlyAtLimit_below :
    WF (held 18 (ones 15) []) ∧ (held 18 (ones 15) []).ovf = false ∧
      byteIndex (held 18 (ones 15) []).n + 2 ≤ (held 18 (ones 15) []).cap :=
  ⟨wf_fifteen, rfl, by decide⟩

/-- A state with the overflow flag set. -/
def faulted : State := { held 9 (ones 8) [] with ovf := true }

theorem witness_OverflowedBlockRefusesPackAndFlush : faulted.ovf = true := rfl

theorem witness_OverflowIsLeftOnlyByReset :
    faulted.ovf = true ∧ Instr.flush ≠ .reset ∧
      ∃ t, step (issue 0x400#11 faulted) = .next t ∧ t.ovf = false :=
  ⟨rfl, by decide, _, rfl, rfl⟩

theorem witness_PackSequenceEncodesSymbols :
    Holds (held 18 (ones 7) []) (ones 7) ∧ (held 18 (ones 7) []).ovf = false ∧
      (held 18 (ones 7) []).n + (ones 9).length ≤ nmax (held 18 (ones 7) []).cap :=
  ⟨holds_held _ _ _, rfl, by decide⟩

theorem witness_EightPacksAreOneGroup :
    Holds (held 18 (ones 8) []) (ones 8) ∧ (held 18 (ones 8) []).ovf = false ∧
      (held 18 (ones 8) []).n % 8 = 0 ∧ (held 18 (ones 8) []).n + 8 ≤ nmax (held 18 (ones 8) []).cap :=
  ⟨holds_held _ _ _, rfl, by decide, by decide⟩

theorem witness_ControlBitIsNotLatched :
    WF State.reset ∧ State.reset.ovf = false ∧ State.reset.n + 2 ≤ nmax State.reset.cap :=
  ⟨wf_reset, rfl, by decide⟩

theorem witness_FlushHandsOverPaddedTransaction :
    Holds (held 9 (ones 3) [.answers (.err .first)]) (ones 3) ∧
      (held 9 (ones 3) [.answers (.err .first)]).ovf = false ∧ 0 < (held 9 (ones 3) [.answers (.err .first)]).n ∧
      9 * (((held 9 (ones 3) [.answers (.err .first)]).n + 7) / 8) ≤ (held 9 (ones 3) [.answers (.err .first)]).cap ∧
      TransportAnswers (held 9 (ones 3) [.answers (.err .first)]) :=
  ⟨holds_held _ _ _, rfl, by decide, by decide, by simp [TransportAnswers, held]⟩

theorem witness_FlushHandsOverPaddedTransaction_drawn :
    Holds (held 18 (ones 16) []) (ones 16) ∧ (held 18 (ones 16) []).ovf = false ∧
      0 < (held 18 (ones 16) []).n ∧
      9 * (((held 18 (ones 16) []).n + 7) / 8) ≤ (held 18 (ones 16) []).cap ∧
      TransportAnswers (held 18 (ones 16) []) :=
  ⟨holds_held _ _ _, rfl, by decide, by decide, by simp [TransportAnswers, held]⟩

theorem witness_PaddingIsPackingFillers :
    Holds (held 9 (ones 1) []) (ones 1) ∧ (held 9 (ones 1) []).ovf = false ∧
      paddedLen (held 9 (ones 1) []).n ≤ (held 9 (ones 1) []).cap ∧ (held 9 (ones 1) []).n % 8 ≠ 0 :=
  ⟨holds_held _ _ _, rfl, by decide, by decide⟩

theorem witness_PaddingIsPackingFillers_aligned :
    Holds (held 9 (ones 8) []) (ones 8) ∧ (held 9 (ones 8) []).ovf = false ∧
      paddedLen (held 9 (ones 8) []).n ≤ (held 9 (ones 8) []).cap ∧ (held 9 (ones 8) []).n % 8 = 0 :=
  ⟨holds_held _ _ _, rfl, by decide, by decide⟩

theorem witness_FlushOverflowsBeforePadding :
    (held 17 (ones 9) []).ovf = false ∧
      (held 17 (ones 9) []).cap < 9 * (((held 17 (ones 9) []).n + 7) / 8) := by decide

theorem witness_FlushOverflowsBeforePadding_fits :
    WF (held 18 (ones 15) []) ∧ (held 18 (ones 15) []).cap % 9 = 0 := ⟨wf_fifteen, by decide⟩

theorem witness_FlushOverflowsBeforePadding_aligned :
    WF (held 17 (ones 8) []) ∧ (held 17 (ones 8) []).n % 8 = 0 :=
  ⟨⟨by decide, by decide, by decide, _, holds_held _ _ _⟩, by decide⟩

theorem witness_FlushOverflowsBeforePadding_example : (ones 9).length = 9 := by decide

theorem witness_EmptyFlushIsNoOp : State.reset.n = 0 ∧ State.reset.ovf = false := by decide

theorem witness_AlignedFlushSendsBufferAsItStands :
    WF (held 9 (ones 8) [.answers .ok]) ∧ (held 9 (ones 8) [.answers .ok]).ovf = false ∧
      0 < (held 9 (ones 8) [.answers .ok]).n ∧ (held 9 (ones 8) [.answers .ok]).n % 8 = 0 ∧
      TransportAnswers (held 9 (ones 8) [.answers .ok]) :=
  ⟨wf_eight _, rfl, by decide, by decide, by simp [TransportAnswers, held]⟩

theorem witness_FlushEndsAsTransportAnswers_ok :
    WF (held 9 (ones 3) [.answers .ok]) ∧ (held 9 (ones 3) [.answers .ok]).ovf = false ∧
      0 < (held 9 (ones 3) [.answers .ok]).n ∧
      9 * (((held 9 (ones 3) [.answers .ok]).n + 7) / 8) ≤
        (held 9 (ones 3) [.answers .ok]).cap ∧
      (held 9 (ones 3) [.answers .ok]).transport = .answers .ok :: [] :=
  ⟨wf_three _, rfl, by decide, by decide, rfl⟩

theorem witness_FlushEndsAsTransportAnswers_err :
    WF (held 9 (ones 3) [.answers (.err .first)]) ∧ (held 9 (ones 3) [.answers (.err .first)]).ovf = false ∧
      0 < (held 9 (ones 3) [.answers (.err .first)]).n ∧
      9 * (((held 9 (ones 3) [.answers (.err .first)]).n + 7) / 8) ≤
        (held 9 (ones 3) [.answers (.err .first)]).cap ∧
      (held 9 (ones 3) [.answers (.err .first)]).transport = .answers (.err .first) :: [] :=
  ⟨wf_three _, rfl, by decide, by decide, rfl⟩

theorem witness_SilentTransportHangsFlush :
    WF (held 9 (ones 3) [.silent]) ∧ (held 9 (ones 3) [.silent]).ovf = false ∧
      0 < (held 9 (ones 3) [.silent]).n ∧
      9 * (((held 9 (ones 3) [.silent]).n + 7) / 8) ≤ (held 9 (ones 3) [.silent]).cap ∧
      (held 9 (ones 3) [.silent]).transport.head? = some .silent :=
  ⟨wf_three _, rfl, by decide, by decide, rfl⟩

theorem witness_MultipleOfNineNeverOverflows :
    Initial (State.construct 18) ∧ (State.construct 18).cap = 9 * 2 ∧ (ones 16).length ≤ 8 * 2 ∧
      TransportAnswers (State.construct 18) :=
  ⟨⟨rfl, rfl, rfl⟩, rfl, by decide, by simp [TransportAnswers, State.construct]⟩

theorem witness_MultipleOfNineNeverOverflows_empty :
    Initial (State.construct 9) ∧ (State.construct 9).cap = 9 * 1 ∧ ([] : List Symbol).length ≤ 8 * 1 ∧
      TransportAnswers (State.construct 9) :=
  ⟨⟨rfl, rfl, rfl⟩, rfl, by decide, by simp [TransportAnswers, State.construct]⟩

theorem witness_OddCapacityHazard :
    8 * 1 < 9 ∧ 9 ≤ nmax (9 * 1 + 8) ∧ WF (held 17 (ones 9) []) ∧
      (held 17 (ones 9) []).cap = 9 * 1 + 8 ∧ 8 * 1 < (held 17 (ones 9) []).n ∧
      .reset ∉ [Instr.flush, .pack 0 0x01, .reserved] :=
  ⟨by decide, by decide, wf_seventeen, rfl, by decide, by decide⟩

/-- BufferOverflow, TransportError and IllegalCommand are each returned somewhere. -/
theorem witness_ErrorLeavesState :
    (∃ t, Returns (.pack 1 0xFF) (held 18 (ones 16) []) t ⟨.bufferOverflow, 0, none⟩) ∧
    (∃ t, Returns .flush (held 9 (ones 3) [.answers (.err .first)]) t ⟨.transportError, 0, some .first⟩) ∧
    (∃ t, Returns .reserved State.reset t ⟨.illegalCommand, 0, none⟩) :=
  ⟨⟨_, rfl, rfl⟩, ⟨_, rfl, rfl⟩, ⟨_, rfl, rfl⟩⟩

theorem witness_ErrorsAreRaisedExactly :
    ∃ t, exec .flush (held 17 (ones 9) []) = .next t := ⟨_, rfl⟩

theorem witness_ResponseShape :
    ∃ t, exec .flush (held 9 (ones 3) [.answers .ok]) = .next t := ⟨_, rfl⟩

theorem witness_EveryOperationCompletesByPriority :
    WF (held 9 (ones 3) [.answers .ok]) ∧ Holds (held 9 (ones 3) [.answers .ok]) (ones 3) ∧
      TransportAnswers (held 9 (ones 3) [.answers .ok]) :=
  ⟨wf_three _, holds_held _ _ _, by simp [TransportAnswers, held]⟩

theorem witness_TransportErrorValueIsOpaque :
    { State.construct 9 Nat with transport := [.answers (.err 7)] }.transport ≠ [] := by decide

theorem witness_TransitionTable_pack_rows :
    (WF State.reset ∧ modeOf State.reset = .empty ∧ byteIndex State.reset.n + 2 ≤ State.reset.cap) ∧
    (WF (held 9 (ones 3) [.answers .ok]) ∧ modeOf (held 9 (ones 3) [.answers .ok]) = .accumulating ∧
      byteIndex 3 + 2 ≤ 9 ∧ phase 3 ≤ 6) ∧
    (WF (held 18 (ones 15) []) ∧ modeOf (held 18 (ones 15) []) = .accumulating ∧
      byteIndex 15 + 2 ≤ 18 ∧ phase 15 = 7) ∧
    (WF (held 18 (ones 16) []) ∧ modeOf (held 18 (ones 16) []) ≠ .faulted ∧ 18 < byteIndex 16 + 2) :=
  ⟨⟨wf_reset, by decide, by decide⟩, ⟨wf_three _, by decide, by decide, by decide⟩,
    ⟨wf_fifteen, by decide, by decide, by decide⟩, ⟨wf_sixteen, by decide, by decide⟩⟩

theorem witness_TransitionTable_flush_rows :
    (WF State.reset ∧ modeOf State.reset = .empty ∧ State.reset.n = 0) ∧
    (WF (held 9 (ones 8) [.answers .ok]) ∧ modeOf (held 9 (ones 8) [.answers .ok]) = .empty ∧
      0 < (held 9 (ones 8) [.answers .ok]).n ∧ TransportAnswers (held 9 (ones 8) [.answers .ok])) ∧
    (WF (held 9 (ones 3) [.answers .ok]) ∧ modeOf (held 9 (ones 3) [.answers .ok]) = .accumulating ∧
      paddedLen 3 ≤ 9 ∧ TransportAnswers (held 9 (ones 3) [.answers .ok])) ∧
    (WF (held 17 (ones 9) []) ∧ modeOf (held 17 (ones 9) []) = .accumulating ∧ 17 < paddedLen 9) :=
  ⟨⟨wf_reset, by decide, by decide⟩, ⟨wf_eight _, by decide, by decide, by simp [TransportAnswers, held]⟩,
    ⟨wf_three _, by decide, by decide, by simp [TransportAnswers, held]⟩,
    ⟨wf_seventeen, by decide, by decide⟩⟩

theorem witness_TransitionTable_faulted_rows : WF faulted ∧ modeOf faulted = .faulted :=
  ⟨⟨by decide, by decide, by decide, ones 8, holds_held 9 (ones 8) []⟩, by decide⟩

theorem witness_StatusViewOfWellFormedState : WF (held 18 (ones 15) []) := wf_fifteen

theorem witness_StepKeepsWellFormed :
    WF (issue 0x200#11 (held 9 (ones 3) [.answers .ok])) ∧
      ∃ t, step (issue 0x200#11 (held 9 (ones 3) [.answers .ok])) = .next t :=
  ⟨wf_three (.answers .ok), _, rfl⟩

/-- A state explained by its record: one PACK has returned. -/
def explained : State :=
  { held 9 [⟨0, 0x2A⟩] [.answers .ok] with
    host := [.command 0x200#11], trace := [.returned (.pack 0 0x2A) ⟨.ok, 0, none⟩] }

theorem witness_StepKeepsStateExplainedByRecord :
    Explained explained ∧ ∃ t, step explained = .next t :=
  ⟨⟨⟨by decide, by decide⟩, by decide, by decide, by decide⟩, _, rfl⟩

theorem witness_StepKeepsBufferInBounds :
    BufferInBounds explained ∧ ∃ t, step explained = .next t :=
  ⟨⟨by decide, by decide⟩, _, rfl⟩

theorem witness_StepKeepsFramesLegal :
    FramesLegal { explained with sent := [(List.replicate 9 0x00, .ok)] } ∧
      ∃ t, step { explained with sent := [(List.replicate 9 0x00, .ok)] } = .next t :=
  ⟨by simp [FramesLegal, LegalFrame, explained, held, State.construct], _, rfl⟩

theorem witness_NoAccessBeyondCapacity : (held 9 (ones 3) []).cap ≤ 9 := by decide

theorem witness_WellFormedStepCompletes :
    WF (issue 0x200#11 (held 9 (ones 3) [.answers .ok])) ∧
      TransportAnswers (issue 0x200#11 (held 9 (ones 3) [.answers .ok])) :=
  ⟨wf_three (.answers .ok), by simp [TransportAnswers, issue, held]⟩

theorem witness_BufferInvariants :
    WF (held 18 (ones 16) []) ∧ Holds (held 18 (ones 16) []) (ones 16) ∧
      8 * 1 + 8 ≤ (held 18 (ones 16) []).n :=
  ⟨wf_sixteen, holds_held _ _ _, by decide⟩

theorem witness_BufferInvariants_unused_bits :
    WF (held 9 (ones 3) [.answers .ok]) ∧ 9 * 3 ≤ 27 ∧
      27 < 8 * (held 9 (ones 3) [.answers .ok]).mem.length :=
  ⟨wf_three _, by decide, by decide⟩

theorem witness_BufferInvariants_shrinks :
    WF (issue 0x200#11 (held 9 (ones 3) [.answers .ok])) ∧
      ∃ t, step (issue 0x200#11 (held 9 (ones 3) [.answers .ok])) = .next t ∧
        t.mem.length < (issue 0x200#11 (held 9 (ones 3) [.answers .ok])).mem.length :=
  ⟨wf_three (.answers .ok), _, rfl, by decide⟩

theorem witness_StreamEncoderLaws :
    (3 < lenOf (ones 3).length ∧ 8 * 3 + 2 < 9 * (ones 3).length ∧ ¬ 8 * 3 + 3 < 9 * (ones 3).length) ∧
    (Holds (held 18 (ones 15) []) (ones 15) ∧ (held 18 (ones 15) []).ovf = false ∧
      (held 18 (ones 15) []).n + 1 ≤ nmax (held 18 (ones 15) []).cap) ∧
    (ones 7).length < 8 :=
  ⟨by decide, ⟨holds_held _ _ _, rfl, by decide⟩, by decide⟩

theorem witness_DecodeStreamRoundTrip :
    Holds (held 18 (ones 15) []) (ones 15) ∧ lenOf 15 ≤ (encodeStream (ones 15)).length ∧ 14 < 15 :=
  ⟨holds_held _ _ _, by decide, by decide⟩

theorem witness_PrefixLaw : 2 < (ones 3).length % 8 := by decide

theorem witness_GroupIndependenceLaw :
    (∀ k, 8 * 0 ≤ k → k < 8 * 0 + 8 → (ones 9)[k]? = (ones 10)[k]?) ∧ 9 * 0 ≤ 8 ∧ 8 < 9 * 0 + 9 ∧
      10 ≠ 8 + 8 / 8 + 0 ∧ 11 ≠ 8 + 8 / 8 + 1 :=
  ⟨by decide, by decide, by decide, by decide, by decide⟩

theorem witness_LengthLaw : WF (held 17 (ones 9) []) := wf_seventeen

end Sys2Proof.Tests
end

/-! ## What every step keeps (spec/10_state.md R10, spec/00_scope.md R9) -/

namespace Sys2Proof.Machine

variable {TERR : Type}

/-- What no operation undoes: the capacity and the host's list stay, and the record and the list of frames
only grow at their ends. -/
structure KeepsPast (s t : State TERR) : Prop where
  cap : t.cap = s.cap
  host : t.host = s.host
  trace : s.trace <+: t.trace
  sent : s.sent <+: t.sent

theorem KeepsPast.trans {s t u : State TERR} (h : KeepsPast s t) (h' : KeepsPast t u) : KeepsPast s u where
  cap := h'.cap.trans h.cap
  host := h'.host.trans h.host
  trace := h.trace.trans h'.trace
  sent := h.sent.trans h'.sent

theorem respond_keepsPast (i : Instr) (r : Response TERR) (s : State TERR) :
    KeepsPast s (respond i r s) := by
  constructor <;> simp

theorem raiseError_keepsPast (i : Instr) (e : Error TERR) (s : State TERR) :
    KeepsPast s (raiseError i e s) := by
  constructor <;> simp

theorem resetBlock_keepsPast (s : State TERR) : KeepsPast s (resetBlock s) := by
  constructor <;> simp

theorem hardwareReset_keepsPast (s : State TERR) : KeepsPast s (hardwareReset s) := by
  constructor <;> simp

theorem appendSymbol_keepsPast {x : Symbol} {s t : State TERR} (h : appendSymbol x s = .ok t) :
    KeepsPast s t := by
  obtain ⟨⟨m, rfl⟩, -, -⟩ := appendSymbol_ok h
  constructor <;> simp

theorem handOff_keepsPast {frame : List Byte} {s t : State TERR} (h : handOff frame s = .ok t) :
    KeepsPast s t := by
  obtain ⟨-, -, -, hcap, hhost, ⟨a, hsent⟩, ⟨r, htrace⟩⟩ := handOff_ok h
  exact ⟨hcap, hhost, by simp [htrace], by simp [hsent]⟩

theorem execPack_keepsPast {c : Bit} {d : Byte} {s t : State TERR} (h : execPack c d s = .next t) :
    KeepsPast s t := by
  rcases execPack_cases h with ⟨-, rfl⟩ | ⟨-, -, u, happend, rfl⟩
  · exact raiseError_keepsPast ..
  · exact (appendSymbol_keepsPast happend).trans (respond_keepsPast ..)

theorem execFlush_keepsPast {s t : State TERR} (h : execFlush s = .next t) : KeepsPast s t := by
  rcases execFlush_cases h with ⟨-, rfl⟩ | ⟨-, -, -, rfl⟩ | ⟨-, -, -, frame, -, -, hsend⟩
  · exact raiseError_keepsPast ..
  · exact respond_keepsPast ..
  · exact handOff_keepsPast hsend

theorem operate_keepsPast {i : Instr} {s t : State TERR} (h : operate i s = .next t) : KeepsPast s t := by
  cases i with
  | pack c d => exact execPack_keepsPast h
  | flush => exact execFlush_keepsPast h
  | reset =>
    cases h
    exact (resetBlock_keepsPast s).trans (respond_keepsPast ..)
  | reserved =>
    cases h
    exact raiseError_keepsPast ..

/-- A step takes the host's next action and keeps everything else of the past. -/
theorem step_keepsPast {s t : State} (h : step s = .next t) : KeepsPast (takeAction s) t := by
  rcases step_cases s with ⟨hidle, hs⟩ | ⟨rest, -, hs⟩ | ⟨w, rest, -, hs⟩
  · obtain rfl : s = t := by simpa [hs] using h
    constructor <;> simp [hidle]
  · obtain rfl : hardwareReset (takeAction s) = t := by simpa [hs] using h
    exact hardwareReset_keepsPast _
  · rw [hs, exec_eq_operate] at h
    exact operate_keepsPast h

/-- Settles O9: `step_keepsPast`, which follows the three kinds of step and the outcomes of each operation. -/
theorem stepKeepsCapacityAndPast : Obligations.StepKeepsCapacityAndPast := by
  intro s t h
  obtain ⟨hcap, hhost, htrace, hsent⟩ := step_keepsPast h
  exact ⟨hcap, hhost, htrace, hsent⟩

end Sys2Proof.Machine

/-! ## Operations on the buffer see only the block (spec/10_state.md R10, spec/20_memory.md)

A change of a state that leaves the block's own four elements alone commutes with the operations on the buffer.
Renaming error values (R5) is such a change. -/

namespace Sys2Proof.Machine

variable {T U : Type}

/-- The change `g` of a state leaves the block's own four elements as they are, and does not look at the count
or the buffer to change the rest. -/
structure LeavesBlock (g : State T → State U) : Prop where
  n : ∀ s, (g s).n = s.n
  mem : ∀ s, (g s).mem = s.mem
  ovf : ∀ s, (g s).ovf = s.ovf
  cap : ∀ s, (g s).cap = s.cap
  setMem : ∀ s m, g (s.setMem m) = (g s).setMem m
  setCount : ∀ s k, g { s with n := k } = { g s with n := k }

/-- A change of the states on the way goes through two computations in a row when it goes through the second. -/
theorem bind_map_of_commutes {α α' β β' : Type} {g : α → α'} {g' : β → β'} {k : α → Except Fault β}
    {k' : α' → Except Fault β'} (h : ∀ a, k' (g a) = (k a).map g') (e : Except Fault α) :
    (e.map g).bind k' = (e.bind k).map g' := by
  cases e with
  | error x => rfl
  | ok a => exact h a

theorem bind_map_result {α β γ : Type} (e : Except Fault α) (k : α → Except Fault β) (g : β → γ) :
    (e.bind fun a => (k a).map g) = (e.bind k).map g := by
  cases e <;> rfl

theorem settle_map (g : State T → State U) (e : Except Fault (State T)) :
    settle (e.map g) = mapOutcome g (settle e) := by
  cases e <;> rfl

namespace LeavesBlock

variable {g : State T → State U} (hg : LeavesBlock g)
include hg

theorem memAlloc_map (i : Nat) (s : State T) : memAlloc i (g s) = (memAlloc i s).map g := by
  simp only [memAlloc, hg.cap, hg.mem]
  split
  · simp [Except.map, hg.setMem]
  · rfl

theorem memRead_eq (i : Nat) (s : State T) : memRead i (g s) = memRead i s := by
  simp only [memRead, hg.cap, hg.mem]

theorem memWrite_map (i : Nat) (v : Byte) (s : State T) : memWrite i v (g s) = (memWrite i v s).map g := by
  simp only [memWrite, hg.cap, hg.mem]
  split
  · split
    · simp [Except.map, hg.setMem]
    · rfl
  · rfl

theorem memAllocRange_map (a k : Nat) (s : State T) :
    memAllocRange a k (g s) = (memAllocRange a k s).map g := by
  induction k generalizing a s with
  | zero => rfl
  | succ k ih =>
    simp only [memAllocRange, hg.memAlloc_map]
    exact bind_map_of_commutes (ih (a + 1)) _

theorem memReadRange_eq (a k : Nat) (s : State T) : memReadRange a k (g s) = memReadRange a k s := by
  induction k generalizing a with
  | zero => rfl
  | succ k ih => simp only [memReadRange, hg.memRead_eq, ih]

theorem formFrame_eq (s : State T) : formFrame (g s) = formFrame s := by
  simp only [formFrame, hg.n, hg.memAllocRange_map]
  cases memAllocRange (lenOf s.n) (paddedLen s.n - lenOf s.n) s with
  | error x => rfl
  | ok u => exact hg.memReadRange_eq ..

theorem writeFirstByte_map (x : Symbol) (s : State T) :
    writeFirstByte x (g s) = (writeFirstByte x s).map g := by
  simp only [writeFirstByte, hg.n, hg.memAlloc_map, hg.memRead_eq]
  split
  · exact bind_map_of_commutes (hg.memWrite_map _ _) _
  · simp only [hg.memWrite_map, bind_map_result]

theorem writeSecondByte_map (x : Symbol) (s : State T) :
    writeSecondByte x (g s) = (writeSecondByte x s).map g := by
  simp only [writeSecondByte, hg.n, hg.memAlloc_map]
  exact bind_map_of_commutes (hg.memWrite_map _ _) _

theorem appendSymbol_map (x : Symbol) (s : State T) : appendSymbol x (g s) = (appendSymbol x s).map g := by
  simp only [appendSymbol, hg.writeFirstByte_map]
  rw [bind_map_of_commutes (hg.writeSecondByte_map x)]
  cases (writeFirstByte x s).bind (writeSecondByte x) with
  | error e => rfl
  | ok t =>
    have hcount : { g t with n := (g t).n + 1 } = g { t with n := t.n + 1 } := by
      rw [hg.n]
      exact (hg.setCount t _).symm
    exact congrArg Except.ok hcount

theorem packFits_eq (s : State T) : packFits (g s) = packFits s := by
  simp only [packFits, hg.n, hg.cap]

theorem flushFits_eq (s : State T) : flushFits (g s) = flushFits s := by
  simp only [flushFits, hg.n, hg.cap]

end LeavesBlock

end Sys2Proof.Machine

/-! ## The transport's error value is only passed on (spec/00_scope.md R5, spec/60_exceptions.md R132) -/

namespace Sys2Proof.Machine

open Sys2Proof.Config (Answer)

variable {T U : Type} (f : T → U)

/-- A response with its error value renamed. -/
def renameResponse (r : Response T) : Response U := ⟨r.status, r.bytesSent, r.terr.map f⟩

/-- An error of the block with the transport's error value renamed. -/
def renameError : Error T → Error U
  | .bufferOverflow => .bufferOverflow
  | .transportError e => .transportError (f e)
  | .illegalCommand => .illegalCommand

theorem renameEvent_returned (i : Instr) (r : Response T) :
    renameEvent f (.returned i r) = .returned i (renameResponse f r) := rfl

theorem leavesBlock_renameErrors : LeavesBlock (renameErrors f) := by
  constructor <;> intros <;> rfl

theorem respond_renameErrors (i : Instr) (r : Response T) (s : State T) :
    respond i (renameResponse f r) (renameErrors f s) = renameErrors f (respond i r s) := by
  simp [respond, renameErrors, renameEvent_returned]

/-- A success carries no error value, so its response is the same for every TERR. -/
theorem respond_okResponse_renameErrors (i : Instr) (k : Nat) (s : State T) :
    respond i (okResponse k) (renameErrors f s) = renameErrors f (respond i (okResponse k) s) :=
  respond_renameErrors f i (okResponse k) s

theorem raiseError_renameErrors (i : Instr) (e : Error T) (s : State T) :
    raiseError i (renameError f e) (renameErrors f s) = renameErrors f (raiseError i e s) := by
  cases e with
  | bufferOverflow => exact respond_renameErrors f i (errorResponse .bufferOverflow) { s with ovf := true }
  | transportError e => exact respond_renameErrors f i (errorResponse (.transportError e)) s
  | illegalCommand => exact respond_renameErrors f i (errorResponse .illegalCommand) s

theorem hardwareReset_renameErrors (s : State T) :
    hardwareReset (renameErrors f s) = renameErrors f (hardwareReset s) := by
  simp [hardwareReset, resetBlock, clearTransaction, renameErrors, renameEvent]

/-- When the next reply is fixed, Send hands the same frame over and gets the renamed answer. -/
theorem send_renameErrors (frame : List Byte) {s : State T} (h : s.transport ≠ []) :
    send frame (renameErrors f s) =
      (send frame s).map (Prod.map (renameAnswer f) (renameErrors f)) := by
  cases htr : s.transport with
  | nil => exact absurd htr h
  | cons reply rest =>
    cases reply with
    | silent => simp [send, renameErrors, htr, renameReply, Except.map]
    | answers a => simp [send, renameErrors, htr, renameReply, Except.map]

theorem finishFlush_renameErrors (L : Nat) (a : Answer T) (s : State T) :
    finishFlush L (renameAnswer f a) (renameErrors f s) = renameErrors f (finishFlush L a s) := by
  cases a with
  | ok => exact respond_okResponse_renameErrors f .flush L s
  | err e => exact raiseError_renameErrors f .flush (.transportError e) s

theorem handOff_renameErrors (frame : List Byte) {s : State T} (h : s.transport ≠ []) :
    handOff frame (renameErrors f s) = (handOff frame s).map (renameErrors f) := by
  have hsend := send_renameErrors f frame (s := clearTransaction s) h
  have hclear : clearTransaction (renameErrors f s) = renameErrors f (clearTransaction s) := rfl
  rw [handOff, handOff, hclear, hsend]
  cases send frame (clearTransaction s) with
  | error e => rfl
  | ok r => simp [Except.map, finishFlush_renameErrors]

theorem execPack_renameErrors (c : Bit) (d : Byte) (s : State T) :
    execPack c d (renameErrors f s) = mapOutcome (renameErrors f) (execPack c d s) := by
  have hg := leavesBlock_renameErrors f
  have hraise := raiseError_renameErrors f (.pack c d) .bufferOverflow s
  simp only [execPack, hg.ovf, hg.packFits_eq, hg.appendSymbol_map]
  split
  · exact congrArg _ hraise
  · split
    · rw [← settle_map]
      cases appendSymbol ⟨c, d⟩ s with
      | error e => rfl
      | ok t => simp only [Except.map, respond_okResponse_renameErrors]
    · exact congrArg _ hraise

theorem execFlush_renameErrors {s : State T} (h : s.transport ≠ []) :
    execFlush (renameErrors f s) = mapOutcome (renameErrors f) (execFlush s) := by
  have hg := leavesBlock_renameErrors f
  have hraise := raiseError_renameErrors f .flush .bufferOverflow s
  simp only [execFlush, hg.ovf, hg.n, hg.flushFits_eq, hg.formFrame_eq]
  split
  · exact congrArg _ hraise
  · split
    · split
      · exact congrArg _ (respond_okResponse_renameErrors f .flush 0 s)
      · simp only [handOff_renameErrors f _ h, bind_map_result, settle_map]
    · exact congrArg _ hraise

theorem operate_renameErrors (i : Instr) {s : State T} (h : s.transport ≠ []) :
    operate i (renameErrors f s) = mapOutcome (renameErrors f) (operate i s) := by
  cases i with
  | pack c d => exact execPack_renameErrors f c d s
  | flush => exact execFlush_renameErrors f h
  | reset => exact congrArg _ (respond_okResponse_renameErrors f .reset 0 (resetBlock s))
  | reserved => exact congrArg _ (raiseError_renameErrors f .reserved .illegalCommand s)

theorem stepAt_renameErrors {s : State T} (h : s.transport ≠ []) :
    stepAt (renameErrors f s) = mapOutcome (renameErrors f) (stepAt s) := by
  have hhost : (renameErrors f s).host = s.host := rfl
  have htake : takeAction (renameErrors f s) = renameErrors f (takeAction s) := rfl
  simp only [stepAt, stepWith, hhost, htake]
  split
  · rfl
  · exact congrArg _ (hardwareReset_renameErrors f _)
  · exact operate_renameErrors f _ h

/-- Settles O35: the buffer part of each operation sees only the block (`LeavesBlock`), and every place where an
error value stands, the record and the frames' answers, carries it along. -/
theorem transportErrorValueIsOpaque : Obligations.TransportErrorValueIsOpaque :=
  ⟨fun _ _ f i _ h => ⟨operate_renameErrors f i h, stepAt_renameErrors f h⟩, exec_eq_operate, step_eq_stepAt⟩

end Sys2Proof.Machine

/-! ## Buffers that hold symbols (spec/10_state.md R13, R23) -/

namespace Sys2Proof.Machine

/-- The state with the symbols `x` in its buffer and counted, and nothing else changed. -/
def State.withSymbols (s : State) (x : List Symbol) : State :=
  { s with n := x.length, mem := Memory.ofBytes (encodeStream x) }

section
variable (s : State) (x : List Symbol)

@[simp] theorem State.withSymbols_n : (s.withSymbols x).n = x.length := rfl
@[simp] theorem State.withSymbols_mem : (s.withSymbols x).mem = Memory.ofBytes (encodeStream x) := rfl
@[simp] theorem State.withSymbols_ovf : (s.withSymbols x).ovf = s.ovf := rfl
@[simp] theorem State.withSymbols_cap : (s.withSymbols x).cap = s.cap := rfl
@[simp] theorem State.withSymbols_trace : (s.withSymbols x).trace = s.trace := rfl
@[simp] theorem State.withSymbols_sent : (s.withSymbols x).sent = s.sent := rfl

theorem holds_withSymbols : Holds (s.withSymbols x) x := ⟨rfl, rfl⟩

end

/-- What a buffer holds depends on the count and the buffer only. -/
theorem Holds.congr {s t : State} {x : List Symbol} (h : Holds s x) (hn : t.n = s.n) (hmem : t.mem = s.mem) :
    Holds t x :=
  ⟨h.1.trans hn.symm, hmem.trans h.2⟩

theorem holds_nil {s : State} (hn : s.n = 0) (hmem : s.mem = []) : Holds s [] :=
  ⟨hn.symm, by simp [hmem, Memory.ofBytes]⟩

theorem Holds.length_mem {s : State} {x : List Symbol} (h : Holds s x) : s.mem.length = lenOf s.n := by
  rw [h.2, Memory.length_ofBytes, length_encodeStream, h.1]

/-- The bounds on the buffer's length follow from the bound on the count (R73). -/
theorem wf_iff (s : State) : WF s ↔ s.n ≤ nmax s.cap ∧ ∃ x, Holds s x := by
  constructor
  · rintro ⟨hn, -, -, hx⟩
    exact ⟨hn, hx⟩
  · rintro ⟨hn, x, hx⟩
    have hlen : lenOf s.n ≤ s.cap := by
      rw [nmax] at hn
      rw [lenOf]
      omega
    exact ⟨hn, hx.length_mem, hlen, x, hx⟩

theorem paddedLen_eq_zero (n : Nat) : paddedLen n = 0 ↔ n = 0 := by
  rw [paddedLen_eq]
  omega

/-- The frame of a transaction has the padded length (R86). -/
theorem length_frame (x : List Symbol) : (encodeStream (withFillers x)).length = paddedLen x.length := by
  have hle := lenOf_le_paddedLen x.length
  rw [encodeStream_withFillers, List.length_append, List.length_replicate, length_encodeStream]
  omega

/-! ## What Send does, exactly (spec/60_exceptions.md R142, R143) -/

section
variable (s : State) (frame : List Byte)

@[simp] theorem afterSend_n : (afterSend s frame).n = s.n := rfl
@[simp] theorem afterSend_mem : (afterSend s frame).mem = s.mem := rfl
@[simp] theorem afterSend_ovf : (afterSend s frame).ovf = s.ovf := rfl
@[simp] theorem afterSend_cap : (afterSend s frame).cap = s.cap := rfl
@[simp] theorem afterSend_trace : (afterSend s frame).trace = s.trace := rfl
@[simp] theorem afterSend_sent :
    (afterSend s frame).sent = s.sent ++ [(frame, nextAnswer s frame)] := rfl

end

theorem send_of_transportAnswers {s : State} (frame : List Byte) (h : TransportAnswers s) :
    send frame s = .ok (nextAnswer s frame, afterSend s frame) := by
  cases htr : s.transport with
  | nil => simp [send, afterSend, nextAnswer, htr]
  | cons reply rest =>
    cases reply with
    | answers a => simp [send, afterSend, nextAnswer, htr]
    | silent => simp [TransportAnswers, htr] at h

theorem transportAnswers_of_send {s : State} {frame : List Byte} {r : Config.Answer × State}
    (h : send frame s = .ok r) : TransportAnswers s := by
  intro hsilent
  obtain ⟨rest, htr⟩ := List.head?_eq_some_iff.1 hsilent
  simp [send, htr] at h

/-- FLUSH ends with the response that the answer gives it (R92, R93). -/
theorem finishFlush_eq_respond (L : Nat) (a : Config.Answer) (s : State) :
    finishFlush L a s = respond .flush (flushResponse L a) s := by
  cases a <;> rfl

/-- The state after a FLUSH that hands `frame` over to a transport that answers (R91 to R93). -/
def flushed (s : State) (frame : List Byte) : State :=
  respond .flush (flushResponse frame.length (nextAnswer s frame)) (clearTransaction (afterSend s frame))

theorem handOff_of_transportAnswers {s : State} (frame : List Byte) (h : TransportAnswers s) :
    handOff frame s = .ok (flushed s frame) := by
  rw [handOff, send_of_transportAnswers frame (s := clearTransaction s) h, Except.map, finishFlush_eq_respond]
  rfl

theorem transportAnswers_of_handOff {s t : State} {frame : List Byte} (h : handOff frame s = .ok t) :
    TransportAnswers s := by
  obtain ⟨r, hsend, -⟩ := map_ok h
  exact transportAnswers_of_send (s := clearTransaction s) hsend

/-! ## What an operation does to a buffer that holds symbols -/

/-- `OpEffect s x i t`: operation `i`, from a state `s` whose buffer holds `x`, ends in `t`. One constructor per
way an operation can end, with the condition under which it ends so (R71, R86, R118, R59). -/
inductive OpEffect (s : State) (x : List Symbol) : Instr → State → Prop
  | packOverflow (c : Bit) (d : Byte) (h : s.ovf = true ∨ packFits s = false) :
      OpEffect s x (.pack c d) (raiseError (.pack c d) .bufferOverflow s)
  | packed (c : Bit) (d : Byte) (hovf : s.ovf = false) (hfit : packFits s = true) :
      OpEffect s x (.pack c d) (respond (.pack c d) (okResponse 0) (s.withSymbols (x ++ [⟨c, d⟩])))
  | flushOverflow (h : s.ovf = true ∨ flushFits s = false) :
      OpEffect s x .flush (raiseError .flush .bufferOverflow s)
  | flushEmpty (hovf : s.ovf = false) (hn : s.n = 0) :
      OpEffect s x .flush (respond .flush (okResponse 0) s)
  | flushed (hovf : s.ovf = false) (hfit : flushFits s = true) (hn : s.n ≠ 0) (hanswers : TransportAnswers s) :
      OpEffect s x .flush (flushed s (encodeStream (withFillers x)))
  | reset : OpEffect s x .reset (respond .reset (okResponse 0) (resetBlock s))
  | reserved : OpEffect s x .reserved (raiseError .reserved .illegalCommand s)

/-- On a buffer that holds `x`, the buffer part of PACK makes it hold `x` and the symbol. -/
theorem appendSymbol_eq_withSymbols {s : State} {x : List Symbol} (y : Symbol) (hx : Holds s x)
    (hfit : packFits s = true) : appendSymbol y s = .ok (s.withSymbols (x ++ [y])) := by
  rw [appendSymbol_of_holds y hx ((packFits_eq_true s).1 hfit), State.withSymbols, ← hx.1]
  simp

theorem execPack_effect {s t : State} {x : List Symbol} {c : Bit} {d : Byte} (hx : Holds s x)
    (h : execPack c d s = .next t) : OpEffect s x (.pack c d) t := by
  rcases execPack_cases h with ⟨hfull, rfl⟩ | ⟨hovf, hfit, u, happend, rfl⟩
  · exact .packOverflow c d hfull
  · rw [appendSymbol_eq_withSymbols _ hx hfit] at happend
    obtain rfl := Except.ok.inj happend
    exact .packed c d hovf hfit

theorem execFlush_effect {s t : State} {x : List Symbol} (hx : Holds s x) (h : execFlush s = .next t) :
    OpEffect s x .flush t := by
  rcases execFlush_cases h with ⟨hfull, rfl⟩ | ⟨hovf, -, hL, rfl⟩ | ⟨hovf, hfit, hL, frame, hframe, -, hsend⟩
  · exact .flushOverflow hfull
  · exact .flushEmpty hovf ((paddedLen_eq_zero _).1 hL)
  · rw [formFrame_of_holds hx ((flushFits_eq_true s).1 hfit)] at hframe
    obtain rfl := Except.ok.inj hframe
    have hanswers := transportAnswers_of_handOff hsend
    rw [handOff_of_transportAnswers _ hanswers] at hsend
    obtain rfl := Except.ok.inj hsend
    exact .flushed hovf hfit (mt (paddedLen_eq_zero _).2 hL) hanswers

/-- Everything that an operation can do to a state whose buffer holds a list of symbols. -/
theorem exec_effect {s t : State} {x : List Symbol} {i : Instr} (hx : Holds s x) (h : exec i s = .next t) :
    OpEffect s x i t := by
  cases i with
  | pack c d => exact execPack_effect hx h
  | flush => exact execFlush_effect hx h
  | reset =>
    cases h
    exact .reset
  | reserved =>
    cases h
    exact .reserved

/-! ## Invariants of the step -/

/-- What the three kinds of step keep, every step keeps (R8). -/
theorem step_preserves {P : State → Prop} (htake : ∀ s, P s → P (takeAction s))
    (hhard : ∀ s, P s → P (hardwareReset s)) (hexec : ∀ s t i, P s → exec i s = .next t → P t)
    {s t : State} (hs : P s) (h : step s = .next t) : P t := by
  rcases step_cases s with ⟨-, hidle⟩ | ⟨rest, -, hreset⟩ | ⟨w, rest, -, hrun⟩
  · obtain rfl : s = t := by simpa [hidle] using h
    exact hs
  · obtain rfl : hardwareReset (takeAction s) = t := by simpa [hreset] using h
    exact hhard _ (htake s hs)
  · exact hexec _ _ _ (htake s hs) (hrun ▸ h)

/-- An operation keeps the count and the buffer, or leaves the initial state, or appends one symbol that fits. -/
theorem OpEffect.block_cases {s t : State} {x : List Symbol} {i : Instr} (h : OpEffect s x i t) :
    (t.n = s.n ∧ t.mem = s.mem) ∨ Initial t ∨ ∃ y, Holds t (x ++ [y]) ∧ s.n + 1 ≤ nmax s.cap := by
  cases h with
  | packOverflow | flushOverflow | reserved => exact .inl ⟨raiseError_n .., raiseError_mem ..⟩
  | flushEmpty => exact .inl ⟨rfl, rfl⟩
  | flushed hovf => exact .inr (.inl ⟨rfl, rfl, hovf⟩)
  | reset => exact .inr (.inl ⟨rfl, rfl, rfl⟩)
  | packed c d hovf hfit =>
    have hroom := (fits_iff_lt_nmax _ _).1 ((packFits_eq_true s).1 hfit)
    exact .inr (.inr ⟨⟨c, d⟩, (holds_withSymbols s _).congr rfl rfl, hroom⟩)

theorem Initial.wf {s : State} (h : Initial s) : WF s := by
  obtain ⟨hn, hmem, -⟩ := h
  exact (wf_iff s).2 ⟨by simp [hn], [], holds_nil hn hmem⟩

theorem initial_hardwareReset (s : State) : Initial (hardwareReset s) := ⟨rfl, rfl, rfl⟩

theorem exec_cap {i : Instr} {s t : State} (h : exec i s = .next t) : t.cap = s.cap :=
  (operate_keepsPast (exec_eq_operate i s ▸ h)).cap

theorem exec_keeps_wf {i : Instr} {s t : State} (hs : WF s) (h : exec i s = .next t) : WF t := by
  obtain ⟨hn, x, hx⟩ := (wf_iff s).1 hs
  have hcap := exec_cap h
  rcases (exec_effect hx h).block_cases with ⟨hsame, hmem⟩ | hinit | ⟨y, hy, hroom⟩
  · exact (wf_iff t).2 ⟨by rwa [hsame, hcap], x, hx.congr hsame hmem⟩
  · exact hinit.wf
  · have hcount : t.n = s.n + 1 := by simpa [hx.1] using hy.1.symm
    exact (wf_iff t).2 ⟨by rwa [hcount, hcap], _, hy⟩

/-- Settles O39: well-formedness is a bound on the count and a list that the buffer holds, and each way an
operation can end (`OpEffect`) keeps both. -/
theorem stepKeepsWellFormed : Obligations.StepKeepsWellFormed := fun _ _ =>
  step_preserves (P := WF) (fun _ hs => hs) (fun s _ => (initial_hardwareReset s).wf)
    (fun _ _ _ => exec_keeps_wf)

/-! ## The record explains the state (spec/10_state.md R23, spec/00_scope.md R9) -/

/-- Ledger `g` tells what is in the block and what was handed over. -/
def Tells (g : Ledger) (s : State) : Prop :=
  Holds s g.pending ∧ s.ovf = g.overflowed ∧ s.sent = g.sends ∧ s.n ≤ nmax s.cap

theorem explained_iff (s : State) : Explained s ↔ Tells (ledger s.trace) s := Iff.rfl

theorem ledger_append (l : List Event) (e : Event) : ledger (l ++ [e]) = (ledger l).add e := by
  simp [ledger]

/-- A state whose record grew by one entry is explained when the ledger with that entry tells it. -/
theorem explained_of_append {s t : State} {e : Event} (htrace : t.trace = s.trace ++ [e])
    (h : Tells ((ledger s.trace).add e) t) : Explained t := by
  rwa [explained_iff, htrace, ledger_append]

theorem Tells.hardwareReset {g : Ledger} {s : State} (h : Tells g s) :
    Tells (g.add .hardReset) (hardwareReset s) := by
  obtain ⟨-, -, hsent, -⟩ := h
  exact ⟨holds_nil rfl rfl, rfl, hsent, by simp⟩

/-- A BufferOverflow sets the flag in the ledger and in the state and changes nothing else (R134). -/
theorem Tells.overflow {g : Ledger} {s : State} (h : Tells g s) (i : Instr) :
    Tells { g with overflowed := true } (raiseError i .bufferOverflow s) := by
  obtain ⟨hholds, -, hsent, hn⟩ := h
  exact ⟨hholds.congr (by simp) (by simp), rfl, by simpa using hsent, by simpa using hn⟩

/-- A transaction handed over leaves the block, and its frame joins the frames with the answer. -/
theorem Tells.flushed {g : Ledger} {s : State} (h : Tells g s) :
    Tells (g.handOver (nextAnswer s (encodeStream (withFillers g.pending))))
      (flushed s (encodeStream (withFillers g.pending))) := by
  obtain ⟨-, hovf, hsent, -⟩ := h
  exact ⟨holds_nil rfl rfl, hovf, by simp [Machine.flushed, Ledger.handOver, hsent], by simp [Machine.flushed]⟩

/-- The ledger takes a FLUSH that handed over `L` bytes as the hand-over with its answer. -/
theorem Ledger.add_flushResponse (g : Ledger) {L : Nat} (hL : L ≠ 0) (a : Config.Answer) :
    g.add (.returned .flush (flushResponse L a)) = g.handOver a := by
  cases a with
  | ok => simp [Ledger.add, flushResponse, hL]
  | err e => rfl

theorem Tells.opEffect {g : Ledger} {s t : State} {i : Instr} (hg : Tells g s) (h : OpEffect s g.pending i t) :
    ∃ e, t.trace = s.trace ++ [e] ∧ Tells (g.add e) t := by
  obtain ⟨hholds, hovf, hsent, hn⟩ := id hg
  cases h with
  | packOverflow c d => exact ⟨_, raiseError_trace .., hg.overflow _⟩
  | flushOverflow => exact ⟨_, raiseError_trace .., hg.overflow _⟩
  | packed c d _ hfit =>
    have hroom := (fits_iff_lt_nmax _ _).1 ((packFits_eq_true s).1 hfit)
    exact ⟨_, rfl, (holds_withSymbols s _).congr rfl rfl, hovf, hsent, by simpa [hholds.1] using hroom⟩
  | flushEmpty => exact ⟨_, rfl, hg⟩
  | flushed _ _ hpos =>
    refine ⟨_, rfl, ?_⟩
    rw [Ledger.add_flushResponse]
    · exact hg.flushed
    · rwa [length_frame, hholds.1, Ne, paddedLen_eq_zero]
  | reset => exact ⟨_, rfl, holds_nil rfl rfl, rfl, hsent, by simp⟩
  | reserved => exact ⟨_, rfl, hg⟩

theorem exec_keeps_explained {i : Instr} {s t : State} (hs : Explained s) (h : exec i s = .next t) :
    Explained t := by
  obtain ⟨e, htrace, htells⟩ := Tells.opEffect hs (exec_effect hs.1 h)
  exact explained_of_append htrace htells

/-- Settles O40: the entry that an operation adds to the record changes the ledger as the operation changes the
state, for each way it can end (`Tells.opEffect`). -/
theorem stepKeepsStateExplainedByRecord : Obligations.StepKeepsStateExplainedByRecord := fun _ _ =>
  step_preserves (P := Explained) (fun _ hs => hs)
    (fun s hs => explained_of_append (s := s) rfl (Tells.hardwareReset hs)) (fun _ _ _ => exec_keeps_explained)

end Sys2Proof.Machine

/-! ## The buffer's bounds and its canonical form (spec/20_memory.md R30, R40) -/

namespace Sys2Proof.Machine

/-- Whether the buffer is in bounds depends on the buffer and the capacity only. -/
theorem BufferInBounds.congr {s t : State} (h : BufferInBounds s) (hmem : t.mem = s.mem) (hcap : t.cap = s.cap) :
    BufferInBounds t := by
  rwa [BufferInBounds, hmem, hcap]

theorem bufferInBounds_of_empty {s : State} (hmem : s.mem = []) : BufferInBounds s := by
  rw [BufferInBounds, hmem]
  exact ⟨Memory.wf_nil, by simp⟩

theorem execPack_keeps_bounds {c : Bit} {d : Byte} {s t : State} (hs : BufferInBounds s)
    (h : execPack c d s = .next t) : BufferInBounds t := by
  rcases execPack_cases h with ⟨-, rfl⟩ | ⟨-, -, u, happend, rfl⟩
  · exact hs.congr (raiseError_mem ..) (raiseError_cap ..)
  · obtain ⟨-, hwf, hbounds⟩ := appendSymbol_ok happend
    exact ⟨hwf hs.1, hbounds hs.2⟩

theorem execFlush_keeps_bounds {s t : State} (hs : BufferInBounds s) (h : execFlush s = .next t) :
    BufferInBounds t := by
  rcases execFlush_cases h with ⟨-, rfl⟩ | ⟨-, -, -, rfl⟩ | ⟨-, -, -, frame, -, -, hsend⟩
  · exact hs.congr (raiseError_mem ..) (raiseError_cap ..)
  · exact hs.congr rfl rfl
  · obtain ⟨-, hmem, -⟩ := handOff_ok hsend
    exact bufferInBounds_of_empty hmem

theorem exec_keeps_bounds {i : Instr} {s t : State} (hs : BufferInBounds s) (h : exec i s = .next t) :
    BufferInBounds t := by
  cases i with
  | pack c d => exact execPack_keeps_bounds hs h
  | flush => exact execFlush_keeps_bounds hs h
  | reset =>
    cases h
    exact bufferInBounds_of_empty rfl
  | reserved =>
    cases h
    exact hs.congr rfl rfl

/-- Settles O41: PACK writes only indices below the capacity that its primitives checked (`appendSymbol_ok`), and
every other operation leaves the buffer or empties it. -/
theorem stepKeepsBufferInBounds : Obligations.StepKeepsBufferInBounds := fun _ _ =>
  step_preserves (P := BufferInBounds) (fun _ hs => hs) (fun _ _ => bufferInBounds_of_empty rfl)
    (fun _ _ _ => exec_keeps_bounds)

/-! ## Reset, overflow and the status view (spec/10_state.md R16, R17, R21) -/

theorem initial_construct (cap : Nat) : Initial (State.construct cap) := ⟨rfl, rfl, rfl⟩

theorem statusView_of_initial {s : State} (h : Initial s) :
    statusView s = ⟨0, 0, true, true, false, .empty⟩ := by
  obtain ⟨hn, -, hovf⟩ := h
  simp [statusView, modeOf, phase, lenOf, hn, hovf]

theorem step_of_hardReset {s : State} {rest : List HostAction} (h : s.host = .hardReset :: rest) :
    step s = .next (hardwareReset (takeAction s)) := by
  simp [step, stepWith, h]

/-- Settles O10: each of the three leaves the initial state, and the status view reads only what that state
fixes. -/
theorem everyResetGivesInitialState : Obligations.EveryResetGivesInitialState :=
  ⟨fun cap => ⟨initial_construct cap, rfl⟩, fun _ => ⟨_, rfl, ⟨rfl, rfl, rfl⟩, rfl⟩,
    fun _ _ h => ⟨_, step_of_hardReset h, initial_hardwareReset _, rfl⟩, fun _ => statusView_of_initial⟩

/-- In the Faulted state every operation but RESET answers, and keeps the block and the frames (R16, R74, R97). -/
theorem exec_of_overflowed {s : State} {i : Instr} (hovf : s.ovf = true) (hi : i ≠ .reset) :
    ∃ t, exec i s = .next t ∧ t.ovf = true ∧ t.n = s.n ∧ t.mem = s.mem ∧ t.sent = s.sent := by
  cases i with
  | pack c d => exact ⟨raiseError (.pack c d) .bufferOverflow s, by simp [exec, execPack, hovf], by simp⟩
  | flush => exact ⟨raiseError .flush .bufferOverflow s, by simp [exec, execFlush, hovf], by simp⟩
  | reset => exact absurd rfl hi
  | reserved => exact ⟨_, rfl, hovf, rfl, rfl, rfl⟩

theorem step_leaves_overflow {s t : State} (hovf : s.ovf = true) (h : step s = .next t) (ht : t.ovf = false) :
    s.host.head? = some .hardReset ∨ ∃ w, s.host.head? = some (.command w) ∧ decode w = .reset := by
  rcases step_cases s with ⟨-, hidle⟩ | ⟨rest, hhost, -⟩ | ⟨w, rest, hhost, hrun⟩
  · obtain rfl : s = t := by simpa [hidle] using h
    simp [hovf] at ht
  · exact .inl (by rw [hhost, List.head?_cons])
  · refine .inr ⟨w, by rw [hhost, List.head?_cons], ?_⟩
    by_contra hnot
    obtain ⟨u, hu, hset, -⟩ := exec_of_overflowed (s := takeAction s) hovf hnot
    obtain rfl : u = t := by simpa [hrun, hu] using h
    simp [hset] at ht

/-- Settles O18: every operation but RESET keeps a set flag (`exec_of_overflowed`), so a step that clears it was a
hardware reset or a word that decodes to RESET. -/
theorem overflowIsLeftOnlyByReset : Obligations.OverflowIsLeftOnlyByReset :=
  ⟨fun _ _ => exec_of_overflowed, fun _ _ => step_leaves_overflow⟩

/-- Aligned counts are aligned lengths (R15). -/
theorem lenOf_mod_nine_eq_zero (n : Nat) : lenOf n % 9 = 0 ↔ n % 8 = 0 := by
  rw [lenOf]
  omega

theorem lenOf_eq_zero (n : Nat) : lenOf n = 0 ↔ n = 0 := by
  rw [lenOf]
  omega

theorem modeOf_eq_faulted (s : State) : modeOf s = .faulted ↔ s.ovf = true := by
  cases hovf : s.ovf <;> by_cases hphase : s.n % 8 = 0 <;> simp [modeOf, phase, hovf, hphase]

theorem modeOf_eq_empty (s : State) : modeOf s = .empty ↔ s.ovf = false ∧ s.n % 8 = 0 := by
  cases hovf : s.ovf <;> by_cases hphase : s.n % 8 = 0 <;> simp [modeOf, phase, hovf, hphase]

theorem modeOf_eq_accumulating (s : State) : modeOf s = .accumulating ↔ s.ovf = false ∧ s.n % 8 ≠ 0 := by
  cases hovf : s.ovf <;> by_cases hphase : s.n % 8 = 0 <;> simp [modeOf, phase, hovf, hphase]

/-- Settles O37: a well-formed buffer has `lenOf n` bytes, and the view is arithmetic on the count. -/
theorem statusViewOfWellFormedState : Obligations.StatusViewOfWellFormedState := by
  rintro s ⟨-, hlen, -, -⟩
  have haligned := lenOf_mod_nine_eq_zero s.n
  refine ⟨hlen.symm, ?_, ?_, modeOf_eq_faulted s, ?_, ?_⟩
  · rw [← List.length_eq_zero_iff, hlen, lenOf_eq_zero]
    exact decide_eq_true_iff
  · rw [hlen, haligned]
    exact decide_eq_true_iff
  · rw [hlen, haligned]
    exact modeOf_eq_empty s
  · have hphase : s.n % 8 ≠ 0 ↔ 1 ≤ s.n % 8 ∧ s.n % 8 ≤ 7 := by omega
    rw [← hphase]
    exact modeOf_eq_accumulating s

theorem tells_construct (cap : Nat) : Tells ⟨[], false, []⟩ (State.construct cap) :=
  ⟨holds_nil rfl rfl, rfl, rfl, by simp⟩

theorem construct_has_invariants (cap : Nat) :
    WF (State.construct cap) ∧ Explained (State.construct cap) ∧ BufferInBounds (State.construct cap) ∧
      FramesLegal (State.construct cap) :=
  ⟨(initial_construct cap).wf, tells_construct cap, bufferInBounds_of_empty rfl, by simp [FramesLegal]⟩

/-- Settles O38: an empty block with an empty record has every invariant, and the reset state is one. -/
theorem constructedStateHasInvariants : Obligations.ConstructedStateHasInvariants :=
  ⟨construct_has_invariants, construct_has_invariants Config.resetCapacity⟩

end Sys2Proof.Machine

/-! ## The bits of the buffer (spec/20_memory.md R31, spec/40_pack.md R72) -/

namespace Sys2Proof.Machine

/-- A buffer that holds `x` has the stream's bits in its bytes, and no others. -/
theorem Holds.streamBit {s : State} {x : List Symbol} (h : Holds s x) (k : Nat) :
    Memory.streamBit s.mem k = if k < 8 * lenOf s.n then some (symbolBit x k) else none := by
  have hbyte : k / 8 < lenOf s.n ↔ k < 8 * lenOf s.n := by omega
  rw [Memory.streamBit, h.2, Memory.read_ofBytes, getElem?_encodeStream, h.1]
  simp only [hbyte]
  split
  · have hbit : (packedByte x (k / 8)).getLsbD (7 - k % 8) = symbolBit x k := by
      rw [getLsbD_packedByte _ _ _ (by omega)]
      congr 1
      omega
    rw [Option.map_some, hbit]
  · rfl

/-- Below bit 8 a symbol's value is its payload (R50). -/
theorem getLsbD_symbolValue_payload (c : Bit) (d : Byte) {j : Nat} (h : j < 8) :
    (symbolValue ⟨c, d⟩).getLsbD j = d.getLsbD j := by
  simp [symbolValue, h, Nat.lt_succ_of_lt h]

/-- The control bit of a symbol is one bit of the stream: all others are the same for every control bit. -/
theorem symbolBit_control_irrelevant (x y : List Symbol) (c c' : Bit) (d : Byte) {k : Nat}
    (hk : k ≠ 9 * x.length) :
    symbolBit (x ++ ⟨c, d⟩ :: y) k = symbolBit (x ++ ⟨c', d⟩ :: y) k := by
  rcases Nat.lt_or_ge k (9 * x.length) with hbelow | habove
  · rw [symbolBit_append_left _ _ _ hbelow, symbolBit_append_left _ _ _ hbelow]
  · obtain ⟨j, rfl⟩ := Nat.exists_eq_add_of_le habove
    rw [symbolBit_append_right, symbolBit_append_right]
    rcases Nat.lt_or_ge j 9 with hsymbol | hlater
    · have hpayload : ∀ b : Bit, symbolBit (⟨b, d⟩ :: y) j = d.getLsbD (8 - j) := by
        intro b
        rw [← List.singleton_append, symbolBit_append_left _ _ _ (by simpa using hsymbol),
          symbolBit_singleton _ _ hsymbol, getLsbD_symbolValue_payload _ _ (by omega)]
      rw [hpayload, hpayload]
    · obtain ⟨m, rfl⟩ := Nat.exists_eq_add_of_le hlater
      have hrest : ∀ b : Bit, symbolBit (⟨b, d⟩ :: y) (9 + m) = symbolBit y m :=
        fun b => symbolBit_append_right [⟨b, d⟩] y m
      rw [hrest, hrest]

/-- The state after a PACK that fits on a buffer that holds `x` (R71). -/
theorem exec_pack_of_holds {s : State} {x : List Symbol} (y : Symbol) (hx : Holds s x) (hovf : s.ovf = false)
    (hroom : s.n + 1 ≤ nmax s.cap) :
    exec (packOf y) s = .next (respond (packOf y) (okResponse 0) (s.withSymbols (x ++ [y]))) := by
  have hfit : packFits s = true := (packFits_eq_true s).2 ((fits_iff_lt_nmax _ _).2 hroom)
  have happend := appendSymbol_eq_withSymbols y hx hfit
  show execPack y.c y.d s = _
  simp only [execPack, hovf, hfit, happend, if_true, Bool.false_eq_true, if_false]
  rfl

/-- PACKs that fit, one after the other, leave a buffer with their symbols behind the ones before (R104). -/
theorem execAll_packs {s : State} {x : List Symbol} (y : List Symbol) (hx : Holds s x) (hovf : s.ovf = false)
    (hroom : s.n + y.length ≤ nmax s.cap) :
    ∃ t, execAll (y.map packOf) s = .next t ∧ Holds t (x ++ y) ∧ t.ovf = false := by
  induction y generalizing s x with
  | nil => exact ⟨s, rfl, by simpa using hx, hovf⟩
  | cons z y ih =>
    rw [List.length_cons] at hroom
    have hfirst := exec_pack_of_holds z hx hovf (by omega)
    obtain ⟨t, hrun, hholds, htovf⟩ := ih (s := respond (packOf z) (okResponse 0) (s.withSymbols (x ++ [z])))
      ((holds_withSymbols s _).congr rfl rfl) hovf (by simp [hx.1]; omega)
    exact ⟨t, by simp only [List.map_cons, execAll, hfirst, hrun], by simpa using hholds, htovf⟩

/-- Settles O21: both runs end with the same symbols in the buffer but for one control bit, which is one bit of the
stream (`symbolBit_control_irrelevant`). -/
theorem controlBitIsNotLatched : Obligations.ControlBitIsNotLatched := by
  intro s c c' d y hwf hovf hroom
  obtain ⟨-, x, hx⟩ := (wf_iff s).1 hwf
  obtain ⟨t, hrun, ht, htovf⟩ := execAll_packs [⟨c, d⟩, y] hx hovf hroom
  obtain ⟨t', hrun', ht', htovf'⟩ := execAll_packs [⟨c', d⟩, y] hx hovf hroom
  have hcount : t.n = t'.n := by rw [← ht.1, ← ht'.1]; simp
  refine ⟨t, t', hrun, hrun', hcount, htovf.trans htovf'.symm, fun k hk => ?_⟩
  rw [ht.streamBit, ht'.streamBit, hcount, symbolBit_control_irrelevant x [y] c c' d (hx.1 ▸ hk)]

end Sys2Proof.Machine

/-! ## The bytes of a group (spec/42_group_encoder.md R101, spec/10_state.md R15) -/

namespace Sys2Proof.Machine

/-- Bit 8 of a symbol's value is its control bit (R50). -/
theorem getLsbD_symbolValue_control (c : Bit) (d : Byte) : (symbolValue ⟨c, d⟩).getLsbD 8 = c.getLsbD 0 := by
  simp [symbolValue]

/-- The middle column of R56's table in one formula. -/
theorem tableHigh_eq_shifts {o : Nat} (ho : o < 8) (c : Bit) (d : Byte) :
    tableHigh o c d = (c.setWidth 8 <<< (7 - o)) ||| (d >>> (o + 1)) := by
  rcases Nat.lt_or_ge o 7 with hinside | hlast
  · interval_cases o <;> rfl
  · obtain rfl : o = 7 := by omega
    simp [tableHigh, BitVec.ushiftRight_eq_zero]

/-- A mask that keeps every bit that a shift keeps does nothing before the shift. -/
theorem and_shiftLeft_of_mask (d : Byte) {mask : Byte} {k : Nat} (h : mask <<< k = BitVec.allOnes 8 <<< k) :
    (d &&& mask) <<< k = d <<< k := by
  rw [BitVec.shiftLeft_and_distrib, h, ← BitVec.shiftLeft_and_distrib, BitVec.and_allOnes]

/-- The right column of R56's table in one formula. -/
theorem tableLow_eq_shift {o : Nat} (ho : o < 8) (d : Byte) : tableLow o d = d <<< (7 - o) := by
  rcases Nat.lt_or_ge o 7 with hinside | hlast
  · interval_cases o <;> exact and_shiftLeft_of_mask d (by decide)
  · obtain rfl : o = 7 := by omega
    simp [tableLow]

/-- The table of R56 gives the first of a symbol's two bytes: the control bit at offset `o` and payload bits
behind it. -/
theorem tableHigh_eq_windowHigh {o : Nat} (ho : o < 8) (c : Bit) (d : Byte) :
    tableHigh o c d = windowHigh o ⟨c, d⟩ := by
  refine byte_ext fun t ht => ?_
  rw [getLsbD_windowHigh _ _ _ ho ht, tableHigh_eq_shifts ho, BitVec.getLsbD_or, BitVec.getLsbD_shiftLeft,
    BitVec.getLsbD_setWidth, BitVec.getLsbD_ushiftRight]
  rcases Nat.lt_trichotomy o t with hpayload | rfl | hearlier
  · rw [decide_eq_true hpayload.le, getLsbD_symbolValue_payload _ _ (by omega),
      show o + 1 + (7 - t) = 8 - (t - o) by omega]
    simp
    omega
  · rw [Nat.sub_self, Nat.sub_self, Nat.sub_zero, getLsbD_symbolValue_control,
      BitVec.getLsbD_of_ge d _ (by omega), decide_eq_true (show 7 - o < 8 by omega)]
    simp
  · rw [BitVec.getLsbD_of_ge c _ (by omega), BitVec.getLsbD_of_ge d _ (by omega)]
    simp [Nat.not_le.2 hearlier]

/-- The table of R56 gives the second of a symbol's two bytes: the rest of the payload, then zeros. -/
theorem tableLow_eq_windowLow {o : Nat} (ho : o < 8) (c : Bit) (d : Byte) :
    tableLow o d = windowLow o ⟨c, d⟩ := by
  refine byte_ext fun t ht => ?_
  rw [getLsbD_windowLow _ _ _ ho ht, tableLow_eq_shift ho, BitVec.getLsbD_shiftLeft,
    getLsbD_symbolValue_payload _ _ (by omega)]
  by_cases hpayload : t ≤ o
  · rw [show 7 - t - (7 - o) = o - t by omega]
    simp [hpayload]
    omega
  · have hzero : 7 - t < 7 - o := by omega
    simp [hpayload, hzero]

/-- The first byte of a group takes the first bits of its first symbol. -/
theorem encode8_first (g : Vector Symbol 8) : (encode8 g)[0] = windowHigh 0 g[0] :=
  tableHigh_eq_windowHigh (o := 0) (by decide) g[0].c g[0].d

/-- Each byte between takes the last bits of one symbol and the first bits of the next. -/
theorem encode8_between (g : Vector Symbol 8) {j : Nat} (hj : j < 7) :
    (encode8 g)[j + 1] = windowLow j g[j] ||| windowHigh (j + 1) g[j + 1] := by
  rw [← tableLow_eq_windowLow (by omega) g[j].c g[j].d, ← tableHigh_eq_windowHigh (by omega) g[j + 1].c g[j + 1].d]
  rcases Nat.lt_or_ge j 6 with hinside | hseventh
  · interval_cases j <;> exact BitVec.or_assoc ..
  · obtain rfl : j = 6 := by omega
    rfl

/-- The last byte of a group takes the last bits of its last symbol. -/
theorem encode8_last (g : Vector Symbol 8) : (encode8 g)[8] = windowLow 7 g[7] :=
  tableLow_eq_windowLow (o := 7) (by decide) g[7].c g[7].d

/-- A stream bit is a bit of the symbol it lies in; beyond the end the filler, which has no bit set, stands for
that symbol. -/
theorem symbolBit_of_symbol (x : List Symbol) (k : Nat) {j : Nat} (hj : j < 9) :
    symbolBit x (9 * k + j) = (symbolValue (x.getD k Config.fill)).getLsbD (8 - j) := by
  have hsymbol : (9 * k + j) / 9 = k := by omega
  have hbit : (9 * k + j) % 9 = j := by omega
  rw [symbolBit, hsymbol, hbit, List.getD_eq_getElem?_getD]
  cases x[k]? with
  | some y => rfl
  | none => simp

theorem packedByte_group_first (x : List Symbol) (g : Nat) :
    packedByte x (9 * g) = windowHigh 0 (x.getD (8 * g) Config.fill) := by
  refine byte_ext fun t ht => ?_
  rw [getLsbD_packedByte _ _ _ (by omega), getLsbD_windowHigh _ _ _ (by decide) ht,
    show 8 * (9 * g) + (7 - (7 - t)) = 9 * (8 * g) + t by omega, symbolBit_of_symbol _ _ (by omega)]
  simp

theorem packedByte_group_between (x : List Symbol) (g : Nat) {j : Nat} (hj : j < 7) :
    packedByte x (9 * g + (j + 1)) =
      windowLow j (x.getD (8 * g + j) Config.fill) ||| windowHigh (j + 1) (x.getD (8 * g + (j + 1)) Config.fill) := by
  refine byte_ext fun t ht => ?_
  rw [BitVec.getLsbD_or, getLsbD_packedByte _ _ _ (by omega), getLsbD_windowLow _ _ _ (by omega) ht,
    getLsbD_windowHigh _ _ _ (by omega) ht]
  rcases Nat.lt_or_ge j t with hnext | hprev
  · rw [show 8 * (9 * g + (j + 1)) + (7 - (7 - t)) = 9 * (8 * g + (j + 1)) + (t - (j + 1)) by omega,
      symbolBit_of_symbol _ _ (by omega), decide_eq_false (by omega),
      decide_eq_true (show j + 1 ≤ t from hnext)]
    simp
  · rw [show 8 * (9 * g + (j + 1)) + (7 - (7 - t)) = 9 * (8 * g + j) + (8 - (j - t)) by omega,
      symbolBit_of_symbol _ _ (by omega), decide_eq_true hprev, decide_eq_false (by omega),
      show 8 - (8 - (j - t)) = j - t by omega]
    simp

theorem packedByte_group_last (x : List Symbol) (g : Nat) :
    packedByte x (9 * g + 8) = windowLow 7 (x.getD (8 * g + 7) Config.fill) := by
  refine byte_ext fun t ht => ?_
  rw [getLsbD_packedByte _ _ _ (by omega), getLsbD_windowLow _ _ _ (by decide) ht,
    show 8 * (9 * g + 8) + (7 - (7 - t)) = 9 * (8 * g + 7) + (1 + t) by omega,
    symbolBit_of_symbol _ _ (by omega), decide_eq_true (by omega), Bool.true_and]
  congr 1
  omega

@[simp] theorem getElem_groupAt (x : List Symbol) (g k : Nat) (hk : k < 8) :
    (groupAt x g)[k] = x.getD (8 * g + k) Config.fill := by
  simp [groupAt]

/-- The nine bytes of a group in the packed stream are the group's ENCODE8 (R101, R104). -/
theorem packedByte_eq_encode8 (x : List Symbol) (g : Nat) {j : Nat} (hj : j < 9) :
    packedByte x (9 * g + j) = (encode8 (groupAt x g))[j] := by
  rcases j with _ | j
  · rw [encode8_first, getElem_groupAt]
    exact packedByte_group_first x g
  · rcases Nat.lt_or_ge j 7 with hbetween | hlast
    · rw [encode8_between _ hbetween, getElem_groupAt, getElem_groupAt]
      exact packedByte_group_between x g hbetween
    · obtain rfl : j = 7 := by omega
      rw [encode8_last, getElem_groupAt]
      exact packedByte_group_last x g

/-- Group `g` of a stream that holds it whole occupies bytes `9g` to `9g + 8` (R15). -/
theorem encodeStream_group (x : List Symbol) (g : Nat) (h : 8 * g + 8 ≤ x.length) :
    ((encodeStream x).drop (9 * g)).take 9 = (encode8 (groupAt x g)).toList := by
  have hlen : 9 * g + 9 ≤ lenOf x.length := by
    rw [lenOf]
    omega
  refine List.ext_getElem (by simp; omega) fun j hleft hright => ?_
  rw [List.getElem_take, List.getElem_drop, Vector.getElem_toList,
    ← packedByte_eq_encode8 x g (by simpa using hright)]
  simp [encodeStream]

/-! ## The source's invariants of the buffer (spec/10_state.md R14, R15) -/

theorem Holds.bytes_mem {s : State} {x : List Symbol} (h : Holds s x) : s.mem.bytes = encodeStream x := by
  rw [h.2, Memory.bytes_ofBytes]

/-- The buffer's bits beyond the cursor are zero (R15). -/
theorem Holds.streamBit_beyond_cursor {s : State} {x : List Symbol} (h : Holds s x) {k : Nat}
    (hcursor : 9 * s.n ≤ k) (hk : k < 8 * s.mem.length) : Memory.streamBit s.mem k = some false := by
  rw [h.length_mem] at hk
  rw [h.streamBit, if_pos hk, symbolBit_of_ge x k (h.1 ▸ hcursor)]

/-- An operation that shortens the buffer leaves the initial state. -/
theorem exec_shrinks_to_initial {i : Instr} {s t : State} (hs : WF s) (h : exec i s = .next t)
    (hshort : t.mem.length < s.mem.length) : Initial t := by
  obtain ⟨-, x, hx⟩ := (wf_iff s).1 hs
  rcases (exec_effect hx h).block_cases with ⟨-, hmem⟩ | hinit | ⟨y, hy, -⟩
  · simp [hmem] at hshort
  · exact hinit
  · have hcount : t.n = s.n + 1 := by simpa [hx.1] using hy.1.symm
    rw [hy.length_mem, hx.length_mem, hcount, lenOf, lenOf] at hshort
    omega

theorem step_shrinks_to_initial {s t : State} (hs : WF s) (h : step s = .next t)
    (hshort : t.mem.length < s.mem.length) : Initial t := by
  rcases step_cases s with ⟨-, hidle⟩ | ⟨rest, -, hreset⟩ | ⟨w, rest, -, hrun⟩
  · obtain rfl : s = t := by simpa [hidle] using h
    exact absurd hshort (Nat.lt_irrefl _)
  · obtain rfl : hardwareReset (takeAction s) = t := by simpa [hreset] using h
    exact initial_hardwareReset _
  · exact exec_shrinks_to_initial (s := takeAction s) hs (hrun ▸ h) hshort

/-- Settles O45: the buffer is an encoding, whose groups are ENCODE8's (`encodeStream_group`) and whose last bits
are zero; and an operation that does not empty the block keeps its bytes or adds to them. -/
theorem bufferInvariants : Obligations.BufferInvariants := by
  refine ⟨fun s x g _ hx hg => ?_, fun s hs => ?_, fun s t => step_shrinks_to_initial⟩
  · rw [hx.bytes_mem]
    exact encodeStream_group x g (hx.1 ▸ hg)
  · obtain ⟨-, x, hx⟩ := (wf_iff s).1 hs
    refine ⟨?_, ?_, fun k => hx.streamBit_beyond_cursor⟩
    · rw [hx.length_mem, lenOf_mod_nine_eq_zero]
    · rw [hx.length_mem, lenOf_eq, bitOffset_eq]
      split <;> rfl

end Sys2Proof.Machine

/-! ## The agents' lists are only carried along (spec/10_state.md R10, R22) -/

namespace Sys2Proof.Machine

/-- The state with other actions pending, and with more entries before its record and more frames before its
own. -/
def withPast (host : List HostAction) (trace : List Event) (sent : List (List Byte × Config.Answer)) (s : State) :
    State :=
  { s with host := host, trace := trace ++ s.trace, sent := sent ++ s.sent }

/-- A silent transport leaves the hand-off stuck (U3, R143). -/
theorem handOff_of_silent {s : State} (frame : List Byte) (h : s.transport.head? = some .silent) :
    handOff frame s = .error .transportSilent := by
  obtain ⟨rest, htr⟩ := List.head?_eq_some_iff.1 h
  simp [handOff, send, htr, Except.map]

section
variable (host : List HostAction) (trace : List Event) (sent : List (List Byte × Config.Answer))

theorem leavesBlock_withPast : LeavesBlock (withPast host trace sent) := by
  constructor <;> intros <;> rfl

theorem respond_withPast (i : Instr) (r : Response) (s : State) :
    respond i r (withPast host trace sent s) = withPast host trace sent (respond i r s) := by
  simp [respond, withPast]

theorem raiseError_withPast (i : Instr) (e : Error) (s : State) :
    raiseError i e (withPast host trace sent s) = withPast host trace sent (raiseError i e s) := by
  cases e with
  | bufferOverflow => exact respond_withPast host trace sent i _ { s with ovf := true }
  | transportError e => exact respond_withPast host trace sent i _ s
  | illegalCommand => exact respond_withPast host trace sent i _ s

theorem afterSend_withPast (frame : List Byte) (s : State) :
    afterSend (withPast host trace sent s) frame = withPast host trace sent (afterSend s frame) := by
  simp only [afterSend, withPast, List.append_assoc]
  rfl

theorem flushed_withPast (frame : List Byte) (s : State) :
    flushed (withPast host trace sent s) frame = withPast host trace sent (flushed s frame) := by
  rw [flushed, afterSend_withPast]
  exact respond_withPast host trace sent .flush _ (clearTransaction (afterSend s frame))

theorem handOff_withPast (frame : List Byte) (s : State) :
    handOff frame (withPast host trace sent s) = (handOff frame s).map (withPast host trace sent) := by
  by_cases hanswers : TransportAnswers s
  · rw [handOff_of_transportAnswers frame hanswers, handOff_of_transportAnswers (s := withPast ..) frame hanswers,
      flushed_withPast]
    rfl
  · have hsilent := not_not.1 hanswers
    rw [handOff_of_silent frame hsilent, handOff_of_silent (s := withPast ..) frame hsilent]
    rfl

theorem execPack_withPast (c : Bit) (d : Byte) (s : State) :
    execPack c d (withPast host trace sent s) = mapOutcome (withPast host trace sent) (execPack c d s) := by
  have hg := leavesBlock_withPast host trace sent
  have hraise := raiseError_withPast host trace sent (.pack c d) .bufferOverflow s
  simp only [execPack, hg.ovf, hg.packFits_eq, hg.appendSymbol_map]
  split
  · exact congrArg _ hraise
  · split
    · rw [← settle_map]
      cases appendSymbol ⟨c, d⟩ s with
      | error e => rfl
      | ok t => simp only [Except.map, respond_withPast]
    · exact congrArg _ hraise

theorem execFlush_withPast (s : State) :
    execFlush (withPast host trace sent s) = mapOutcome (withPast host trace sent) (execFlush s) := by
  have hg := leavesBlock_withPast host trace sent
  have hraise := raiseError_withPast host trace sent .flush .bufferOverflow s
  simp only [execFlush, hg.ovf, hg.n, hg.flushFits_eq, hg.formFrame_eq]
  split
  · exact congrArg _ hraise
  · split
    · split
      · exact congrArg _ (respond_withPast host trace sent .flush _ s)
      · simp only [handOff_withPast, bind_map_result, settle_map]
    · exact congrArg _ hraise

theorem exec_withPast (i : Instr) (s : State) :
    exec i (withPast host trace sent s) = mapOutcome (withPast host trace sent) (exec i s) := by
  cases i with
  | pack c d => exact execPack_withPast host trace sent c d s
  | flush => exact execFlush_withPast host trace sent s
  | reset => exact congrArg _ (respond_withPast host trace sent .reset _ (resetBlock s))
  | reserved => exact congrArg _ (raiseError_withPast host trace sent .reserved .illegalCommand s)

end

/-- The state with nothing pending, no record and no frames handed over. -/
def withoutPast (s : State) : State := { s with host := [], trace := [], sent := [] }

theorem withPast_withoutPast (host : List HostAction) (trace : List Event)
    (sent : List (List Byte × Config.Answer)) (s : State) :
    withPast host trace sent (withoutPast s) = { s with host := host, trace := trace, sent := sent } := by
  simp [withPast, withoutPast]

theorem mapOutcome_mapOutcome {T U V : Type} (g : State U → State V) (f : State T → State U)
    (o : Host.Outcome (State T) Fault Refusal) : mapOutcome g (mapOutcome f o) = mapOutcome (fun s => g (f s)) o := by
  cases o <;> rfl

/-- Settles O46: an operation from any past is the operation from no past with that past put before it
(`exec_withPast`), and putting one past before for another is what the statement's change does. -/
theorem onlyBlockStateMatters : Obligations.OnlyBlockStateMatters := by
  intro i s host trace sent
  have hself : s = withPast s.host s.trace s.sent (withoutPast s) := (withPast_withoutPast ..).symm
  have hexec : exec i s = mapOutcome (withPast s.host s.trace s.sent) (exec i (withoutPast s)) := by
    rw [← exec_withPast, ← hself]
  rw [← withPast_withoutPast, exec_withPast, hexec, mapOutcome_mapOutcome]
  congr 1
  funext t
  simp [withPast]

end Sys2Proof.Machine

/-! ## No access reaches past the capacity (spec/20_memory.md R40) -/

namespace Sys2Proof.Machine

variable {T : Type}

/-- Two computations in a row do not stop with a fault that the first one does not stop with, nor the second from
what the first one gives. -/
theorem bind_ne_error {α β : Type} {e : Except Fault α} {k : α → Except Fault β} {f : Fault} (he : e ≠ .error f)
    (hk : ∀ a, e = .ok a → k a ≠ .error f) : e.bind k ≠ .error f := by
  cases e with
  | error x => simpa [Except.bind] using he
  | ok a => exact hk a rfl

theorem map_ne_error {α β : Type} {e : Except Fault α} (g : α → β) {f : Fault} (he : e ≠ .error f) :
    e.map g ≠ .error f := by
  cases e with
  | error x => simpa [Except.map] using he
  | ok a => simp [Except.map]

/-! ### Which accesses stop there (entry 6) -/

theorem memAlloc_eq_outsideBuffer (i : Nat) (s : State T) :
    memAlloc i s = .error .outsideBuffer ↔ s.cap ≤ i := by
  unfold memAlloc
  split
  · simpa using ‹i < s.cap›
  · simpa using ‹¬ i < s.cap›

theorem memRead_eq_outsideBuffer (i : Nat) (s : State T) :
    memRead i s = .error .outsideBuffer ↔ s.cap ≤ i := by
  unfold memRead
  split
  · split <;> simpa using ‹i < s.cap›
  · simpa using ‹¬ i < s.cap›

theorem memWrite_eq_outsideBuffer (i : Nat) (v : Byte) (s : State T) :
    memWrite i v s = .error .outsideBuffer ↔ s.cap ≤ i := by
  unfold memWrite
  split
  · split <;> simpa using ‹i < s.cap›
  · simpa using ‹¬ i < s.cap›

theorem memAlloc_inside {i : Nat} {s : State T} (h : i < s.cap) : memAlloc i s ≠ .error .outsideBuffer :=
  mt (memAlloc_eq_outsideBuffer i s).1 h.not_ge

theorem memRead_inside {i : Nat} {s : State T} (h : i < s.cap) : memRead i s ≠ .error .outsideBuffer :=
  mt (memRead_eq_outsideBuffer i s).1 h.not_ge

theorem memWrite_inside {i : Nat} (v : Byte) {s : State T} (h : i < s.cap) :
    memWrite i v s ≠ .error .outsideBuffer :=
  mt (memWrite_eq_outsideBuffer i v s).1 h.not_ge

/-! ### Below the capacity no operation on the buffer stops there -/

theorem OnlyBuffer.cap {s t : State T} (h : OnlyBuffer s t) : t.cap = s.cap := by
  obtain ⟨⟨m, rfl⟩, -⟩ := h
  rfl

theorem OnlyBuffer.n {s t : State T} (h : OnlyBuffer s t) : t.n = s.n := by
  obtain ⟨⟨m, rfl⟩, -⟩ := h
  rfl

/-- An allocation followed by a write of the same byte, as PACK does it for a new byte (R71). -/
theorem memAlloc_memWrite_inside {i : Nat} (v : Byte) {s : State T} (h : i < s.cap) :
    (memAlloc i s).bind (memWrite i v) ≠ .error .outsideBuffer :=
  bind_ne_error (memAlloc_inside h) fun _ halloc =>
    memWrite_inside v ((memAlloc_onlyBuffer halloc).cap ▸ h)

theorem memAllocRange_inside {a k : Nat} {s : State T} (h : a + k ≤ s.cap) :
    memAllocRange a k s ≠ .error .outsideBuffer := by
  induction k generalizing a s with
  | zero => simp [memAllocRange]
  | succ k ih =>
    refine bind_ne_error (memAlloc_inside (by omega)) fun t halloc => ih ?_
    rw [(memAlloc_onlyBuffer halloc).cap]
    omega

theorem memReadRange_inside {a k : Nat} {s : State T} (h : a + k ≤ s.cap) :
    memReadRange a k s ≠ .error .outsideBuffer := by
  induction k generalizing a with
  | zero => simp [memReadRange]
  | succ k ih =>
    exact bind_ne_error (memRead_inside (by omega)) fun v _ => map_ne_error _ (ih (by omega))

theorem writeFirstByte_inside (x : Symbol) {s : State T} (h : byteIndex s.n < s.cap) :
    writeFirstByte x s ≠ .error .outsideBuffer := by
  simp only [writeFirstByte]
  split
  · exact memAlloc_memWrite_inside _ h
  · exact bind_ne_error (memRead_inside h) fun _ _ => memWrite_inside _ h

theorem writeSecondByte_inside (x : Symbol) {s : State T} (h : byteIndex s.n + 1 < s.cap) :
    writeSecondByte x s ≠ .error .outsideBuffer :=
  memAlloc_memWrite_inside _ h

/-- PACK's capacity test covers both of its bytes (R73, R35). -/
theorem appendSymbol_inside (x : Symbol) {s : State T} (h : byteIndex s.n + 2 ≤ s.cap) :
    appendSymbol x s ≠ .error .outsideBuffer := by
  refine map_ne_error _ (bind_ne_error (writeFirstByte_inside x (by omega)) fun t hfirst => ?_)
  have hbuffer := writeFirstByte_onlyBuffer hfirst
  apply writeSecondByte_inside
  rw [hbuffer.n, hbuffer.cap]
  omega

/-- FLUSH's capacity test covers the padding it allocates and the frame it reads (R88, R86). -/
theorem formFrame_inside {s : State T} (h : paddedLen s.n ≤ s.cap) : formFrame s ≠ .error .outsideBuffer := by
  have hlen := lenOf_le_paddedLen s.n
  refine bind_ne_error (memAllocRange_inside (by omega)) fun t halloc => memReadRange_inside ?_
  rw [OnlyBuffer.cap (memAllocRange_ok halloc)]
  omega

/-- The hand-off makes no access to the buffer. -/
theorem handOff_inside (frame : List Byte) (s : State T) : handOff frame s ≠ .error .outsideBuffer :=
  map_ne_error _ fun hsend => nomatch (send_error hsend).1

/-! ### No operation stops there -/

theorem execPack_inside (c : Bit) (d : Byte) (s : State T) : execPack c d s ≠ .fault .outsideBuffer := by
  unfold execPack
  split
  · nofun
  · split
    · rename_i hfits
      exact mt (settle_eq_fault _ _).1 (map_ne_error _ (appendSymbol_inside _ ((packFits_eq_true s).1 hfits)))
    · nofun

theorem execFlush_inside (s : State T) : execFlush s ≠ .fault .outsideBuffer := by
  unfold execFlush
  split
  · nofun
  · split
    · rename_i hfits
      split
      · nofun
      · exact mt (settle_eq_fault _ _).1
          (bind_ne_error (formFrame_inside ((flushFits_eq_true s).1 hfits)) fun frame _ => handOff_inside frame s)
    · nofun

theorem operate_inside (i : Instr) (s : State T) : operate i s ≠ .fault .outsideBuffer := by
  cases i with
  | pack c d => exact execPack_inside c d s
  | flush => exact execFlush_inside s
  | reset => nofun
  | reserved => nofun

theorem step_inside (s : State) : step s ≠ .fault .outsideBuffer := by
  rcases step_cases s with ⟨-, hs⟩ | ⟨rest, -, hs⟩ | ⟨w, rest, -, hs⟩
  · simp [hs]
  · simp [hs]
  · rw [hs, exec_eq_operate]
    exact operate_inside _ _

/-- Settles O43: PACK and FLUSH access the buffer only after the test that covers the indices they use
(`appendSymbol_inside`, `formFrame_inside`), and an access stops with outsideBuffer just when its index is the
capacity or above. -/
theorem noAccessBeyondCapacity : Obligations.NoAccessBeyondCapacity :=
  ⟨step_inside, fun s i v hi =>
    ⟨(memAlloc_eq_outsideBuffer i s).2 hi, (memRead_eq_outsideBuffer i s).2 hi,
      (memWrite_eq_outsideBuffer i v s).2 hi⟩⟩

end Sys2Proof.Machine

/-! ## The decoder, row by row (spec/30_encoding.md R57 to R59) -/

namespace Sys2Proof.Laws

/-- The mask keeps the operation code, bits 10 and 9, at its place (R57). -/
theorem toNat_and_opMask (w : CommandWord) : (w &&& opMask).toNat = 512 * (w.toNat / 512) := by
  have hmask : opMask = BitVec.allOnes 11 <<< 9 := by decide
  rw [hmask, ← BitVec.shiftLeft_ushiftRight, BitVec.toNat_shiftLeft, BitVec.toNat_ushiftRight,
    Nat.shiftLeft_eq, Nat.shiftRight_eq_div_pow]
  omega

/-- Masking a word gives one of the four match values (R59). -/
theorem and_opMask_cases (w : CommandWord) :
    w &&& opMask = packMatch ∨ w &&& opMask = flushMatch ∨ w &&& opMask = resetMatch ∨
      w &&& opMask = reservedMatch := by
  have hmask := toNat_and_opMask w
  simp only [← BitVec.toNat_inj, hmask, packMatch, flushMatch, resetMatch, reservedMatch, BitVec.toNat_ofNat]
  omega

theorem decode_of_packMatch {w : CommandWord} (h : w &&& opMask = packMatch) :
    decode w = .pack (controlField w) (payloadField w) := by
  simp [decode, selectsRow, h]

theorem decode_of_flushMatch {w : CommandWord} (h : w &&& opMask = flushMatch) : decode w = .flush := by
  simp [decode, selectsRow, h, show flushMatch ≠ packMatch by decide]

theorem decode_of_resetMatch {w : CommandWord} (h : w &&& opMask = resetMatch) : decode w = .reset := by
  simp [decode, selectsRow, h, show resetMatch ≠ packMatch by decide, show resetMatch ≠ flushMatch by decide]

theorem decode_of_reservedMatch {w : CommandWord} (h : w &&& opMask = reservedMatch) : decode w = .reserved := by
  simp [decode, selectsRow, h, show reservedMatch ≠ packMatch by decide,
    show reservedMatch ≠ flushMatch by decide, show reservedMatch ≠ resetMatch by decide]

/-- A word's operation is of the row that its operation code selects. -/
theorem rowMatch_decode (w : CommandWord) : rowMatch (decode w) = w &&& opMask := by
  rcases and_opMask_cases w with h | h | h | h
  · rw [decode_of_packMatch h, h, rowMatch]
  · rw [decode_of_flushMatch h, h, rowMatch]
  · rw [decode_of_resetMatch h, h, rowMatch]
  · rw [decode_of_reservedMatch h, h, rowMatch]

/-- Only the reserved code decodes to the reserved operation (R59). -/
theorem decode_eq_reserved (w : CommandWord) : decode w = .reserved ↔ w &&& opMask = reservedMatch := by
  refine ⟨fun h => ?_, decode_of_reservedMatch⟩
  rw [← rowMatch_decode, h, rowMatch]

/-- Outside the row of PACK the operation code alone decides the operation (R57, R59). -/
theorem decode_congr {w v : CommandWord} (hrow : w &&& opMask = v &&& opMask) (hpack : w &&& opMask ≠ packMatch) :
    decode w = decode v := by
  rcases and_opMask_cases w with h | h | h | h
  · exact absurd h hpack
  · rw [decode_of_flushMatch h, decode_of_flushMatch (hrow ▸ h)]
  · rw [decode_of_resetMatch h, decode_of_resetMatch (hrow ▸ h)]
  · rw [decode_of_reservedMatch h, decode_of_reservedMatch (hrow ▸ h)]

/-- A word selects the row of its masked value and no other. -/
theorem selectsRow_iff (w m : CommandWord) : selectsRow w m = true ↔ m = w &&& opMask :=
  decide_eq_true_iff.trans eq_comm

/-! ### The fields of PACK -/

theorem toNat_controlField (w : CommandWord) : (controlField w).toNat = w.toNat / 256 % 2 := by
  simp [controlField, Nat.shiftRight_eq_div_pow]

theorem toNat_payloadField (w : CommandWord) : (payloadField w).toNat = w.toNat % 256 := by
  simp [payloadField]

/-- The canonical word of PACK as a number: the control bit at bit 8 and the payload below it (R57). -/
theorem toNat_encode_pack (c : Bit) (d : Byte) : (encode (.pack c d)).toNat = 256 * c.toNat + d.toNat := by
  have hcontrol : (c.setWidth 11 <<< 8).toNat = c.toNat <<< 8 := by
    rw [BitVec.toNat_shiftLeft, BitVec.toNat_setWidth_of_le (by decide), Nat.shiftLeft_eq]
    omega
  rw [encode, BitVec.toNat_or, hcontrol, BitVec.toNat_setWidth_of_le (by decide),
    ← Nat.shiftLeft_add_eq_or_of_lt d.isLt, Nat.shiftLeft_eq]
  omega

theorem controlField_encode (c : Bit) (d : Byte) : controlField (encode (.pack c d)) = c := by
  apply BitVec.eq_of_toNat_eq
  rw [toNat_controlField, toNat_encode_pack]
  omega

theorem payloadField_encode (c : Bit) (d : Byte) : payloadField (encode (.pack c d)) = d := by
  apply BitVec.eq_of_toNat_eq
  rw [toNat_payloadField, toNat_encode_pack]
  omega

/-! ### The decoder on numbers (R63) -/

/-- The decoder of numbers takes a command word's number as the word. -/
theorem decodeNumber_toNat (w : CommandWord) : decodeNumber w.toNat = .ok (decode w) := by
  simp [decodeNumber, wellFormedWord, w.isLt]

/-- Reading a command word from at least 11 bits reads the whole word. -/
theorem decodeTableWord_toNat {nbits : Nat} (hbits : 11 ≤ nbits) (w : CommandWord) :
    decodeTableWord nbits w.toNat = some (decode w) := by
  have hfits : w.toNat < 2 ^ nbits := w.isLt.trans_le (Nat.pow_le_pow_right (by decide) hbits)
  rw [decodeTableWord, Nat.mod_eq_of_lt hfits, decodeNumber_toNat]

theorem decode_encode (i : Instr) : decode (encode i) = i := by
  cases i with
  | pack c d =>
    rw [decode_of_packMatch (EncodeSelectsRow.pack c d), controlField_encode, payloadField_encode]
  | flush => exact decode_of_flushMatch EncodeSelectsRow.flush
  | reset => exact decode_of_resetMatch EncodeSelectsRow.reset
  | reserved => exact decode_of_reservedMatch EncodeSelectsRow.reserved

/-- Settles O1: the canonical word selects its operation's row, and the fields of PACK are read back from where
they were put (`decode_encode`); the decoder of numbers reads the same word. -/
theorem decodeInvertsEncode : Obligations.DecodeInvertsEncode := by
  intro i _
  rw [decodeNumber_toNat, decodeTableWord_toNat (by decide), decode_encode]
  exact ⟨rfl, rfl, rfl⟩

/-- Settles O2: one lemma per row; in the row of PACK the operation code is 0, so the word is its two fields. -/
theorem wordSelectsExactlyItsRow : Obligations.WordSelectsExactlyItsRow := by
  intro w
  refine ⟨fun hpack => ?_, decode_of_flushMatch, decode_of_resetMatch, decode_of_reservedMatch,
    and_opMask_cases w⟩
  have hcode : 0 = 512 * (w.toNat / 512) := (congrArg BitVec.toNat hpack).symm.trans (toNat_and_opMask w)
  refine ⟨_, _, decode_of_packMatch hpack, ?_, toNat_payloadField w⟩
  rw [toNat_controlField]
  omega

/-- Settles O4: each word is one row of the table, evaluated. -/
theorem decoderVectors : Obligations.DecoderVectors := by
  unfold Obligations.DecoderVectors
  decide

end Sys2Proof.Laws

/-! ## Commands at the port (spec/30_encoding.md R57, R59) -/

namespace Sys2Proof.Machine

open Sys2Proof.Laws

theorem step_of_command {s : State} {w : CommandWord} {rest : List HostAction} (h : s.host = .command w :: rest) :
    step s = exec (decode w) { s with host := rest } := by
  simp [step, stepWith, takeAction, h]

/-- A word issued is the next operation, from the state before it was issued. -/
theorem step_issue (w : CommandWord) (s : State) : step (issue w s) = exec (decode w) s := rfl

/-- Settles O3: the step of an issued word depends on what it decodes to, and outside the row of PACK that depends
on the two top bits (`decode_congr`). -/
theorem ignoredBitsHaveNoEffect : Obligations.IgnoredBitsHaveNoEffect := by
  intro w v s hw hcode
  have hrow : w &&& opMask = v &&& opMask := by
    apply BitVec.eq_of_toNat_eq
    rw [toNat_and_opMask, toNat_and_opMask, hcode]
  have hpack : w &&& opMask ≠ packMatch := by
    intro h
    have hzero : 512 * (w.toNat / 512) = 0 := (toNat_and_opMask w).symm.trans (congrArg BitVec.toNat h)
    omega
  rw [step_issue, step_issue, decode_congr hrow hpack]

theorem exec_reserved (s : State) :
    exec .reserved s =
      .next { s with trace := s.trace ++ [.returned .reserved ⟨.illegalCommand, 0, none⟩] } := rfl

/-- Settles O13: the reserved operation only answers IllegalCommand, and a word is it exactly when its masked value
is the reserved match value; that masked value is the one row that the word selects. -/
theorem reservedCodeIsIllegalCommand : Obligations.ReservedCodeIsIllegalCommand := by
  refine ⟨exec_reserved, fun s w rest hhost hcode => ?_, decode_eq_reserved, fun w => ⟨w &&& opMask, ?_, ?_⟩⟩
  · rw [step_of_command hhost, decode_of_reservedMatch hcode, exec_reserved]
  · exact ⟨by simpa using and_opMask_cases w, (selectsRow_iff w _).2 rfl⟩
  · rintro m ⟨-, hselects⟩
    exact (selectsRow_iff w m).1 hselects

end Sys2Proof.Machine

/-! ## How an operation ends (spec/30_encoding.md R60, R54) -/

namespace Sys2Proof.Machine

/-- `Ending s i r new`: operation `i` from state `s` can end with response `r`, the frames `new` being handed over
on the way. One constructor per way to end, whatever the buffer holds (R71, R86, R118, R59). -/
inductive Ending (s : State) : Instr → Response → List (List Byte × Config.Answer) → Prop
  | packOverflow (c : Bit) (d : Byte) : Ending s (.pack c d) overflowResponse []
  | packed (c : Bit) (d : Byte) : Ending s (.pack c d) (okResponse 0) []
  | flushOverflow : Ending s .flush overflowResponse []
  | flushEmpty (hn : s.n = 0) : Ending s .flush (okResponse 0) []
  | handedOver (frame : List Byte) (a : Config.Answer) (hn : s.n ≠ 0) (hfits : paddedLen s.n ≤ s.cap)
      (hlen : frame.length = paddedLen s.n) : Ending s .flush (flushResponse frame.length a) [(frame, a)]
  | reset : Ending s .reset (okResponse 0) []
  | reserved : Ending s .reserved ⟨.illegalCommand, 0, none⟩ []

/-- What an operation that ends adds to the record and to the frames is one of its endings. -/
theorem exec_ending {i : Instr} {s t : State} (h : exec i s = .next t) :
    ∃ r new, Ending s i r new ∧ t.trace = s.trace ++ [.returned i r] ∧ t.sent = s.sent ++ new := by
  cases i with
  | pack c d =>
    rcases execPack_cases h with ⟨-, rfl⟩ | ⟨-, -, u, happend, rfl⟩
    · exact ⟨_, _, .packOverflow c d, raiseError_trace .., by simp⟩
    · obtain ⟨⟨m, rfl⟩, -⟩ := appendSymbol_ok happend
      exact ⟨_, _, .packed c d, respond_trace .., by simp⟩
  | flush =>
    rcases execFlush_cases h with ⟨-, rfl⟩ | ⟨-, -, hL, rfl⟩ | ⟨-, hfits, hL, frame, -, hlen, hsend⟩
    · exact ⟨_, _, .flushOverflow, raiseError_trace .., by simp⟩
    · exact ⟨_, _, .flushEmpty ((paddedLen_eq_zero _).1 hL), respond_trace .., by simp⟩
    · rw [handOff_of_transportAnswers _ (transportAnswers_of_handOff hsend)] at hsend
      obtain rfl := Except.ok.inj hsend
      have hn : s.n ≠ 0 := mt (paddedLen_eq_zero _).2 hL
      exact ⟨_, _, .handedOver frame _ hn ((flushFits_eq_true s).1 hfits) hlen, rfl, rfl⟩
  | reset =>
    cases h
    exact ⟨_, _, .reset, rfl, by simp⟩
  | reserved =>
    cases h
    exact ⟨_, _, .reserved, rfl, by simp⟩

namespace Ending

variable {s : State} {i : Instr} {r : Response} {new : List (List Byte × Config.Answer)}

theorem pack_status {c : Bit} {d : Byte} (h : Ending s (.pack c d) r new) :
    r.status = .ok ∨ r.status = .bufferOverflow := by
  cases h with
  | packOverflow => exact .inr rfl
  | packed => exact .inl rfl

theorem flush_status (h : Ending s .flush r new) :
    r.status = .ok ∨ r.status = .bufferOverflow ∨ r.status = .transportError := by
  cases h with
  | flushOverflow => exact .inr (.inl rfl)
  | flushEmpty => exact .inl rfl
  | handedOver frame a =>
    cases a with
    | ok => exact .inl rfl
    | err e => exact .inr (.inr rfl)

theorem reset_status (h : Ending s .reset r new) : r.status = .ok := by
  cases h
  rfl

theorem reserved_status (h : Ending s .reserved r new) : r.status = .illegalCommand := by
  cases h
  rfl

/-- Bytes are reported only by the FLUSH that handed a frame over and got `ok`, and they are the frame's. -/
theorem bytesSent_cases (h : Ending s i r new) :
    r.bytesSent = 0 ∨ i = .flush ∧ r.status = .ok ∧ r.bytesSent = paddedLen s.n ∧ paddedLen s.n ≤ s.cap := by
  cases h with
  | packOverflow | packed | flushOverflow | flushEmpty | reset | reserved => exact .inl rfl
  | handedOver frame a hn hfits hlen =>
    cases a with
    | ok => exact .inr ⟨rfl, rfl, hlen, hfits⟩
    | err e => exact .inl rfl

/-- An error value is reported only by the FLUSH whose frame met it, and that is TransportError. -/
theorem terr_cases (h : Ending s i r new) :
    (r.terr = none ∧ r.status ≠ .transportError) ∨
      ∃ frame e, r.terr = some e ∧ r.status = .transportError ∧ new = [(frame, .err e)] := by
  cases h with
  | packOverflow | packed | flushOverflow | flushEmpty | reset | reserved => exact .inl ⟨rfl, nofun⟩
  | handedOver frame a =>
    cases a with
    | ok => exact .inl ⟨rfl, nofun⟩
    | err e => exact .inr ⟨frame, e, rfl, rfl, rfl⟩

theorem flush_ok (h : Ending s .flush r new) (hok : r.status = .ok) :
    if s.n = 0 then r.bytesSent = 0 ∧ new = []
    else ∃ frame, new = [(frame, .ok)] ∧ r.bytesSent = frame.length ∧ frame.length = paddedLen s.n := by
  cases h with
  | flushOverflow => cases hok
  | flushEmpty hn =>
    rw [if_pos hn]
    exact ⟨rfl, rfl⟩
  | handedOver frame a hn hfits hlen =>
    rw [if_neg hn]
    cases a with
    | ok => exact ⟨frame, rfl, rfl, hlen⟩
    | err e => cases hok

/-- A frame that is handed over is a positive number of whole groups that fits the capacity (R54, R142). -/
theorem new_legal (h : Ending s i r new) : ∀ p ∈ new, LegalFrame s.cap p.1 := by
  cases h with
  | packOverflow | packed | flushOverflow | flushEmpty | reset | reserved => simp
  | handedOver frame a hn hfits hlen =>
    rw [paddedLen_eq] at hfits hlen
    rw [List.forall_mem_singleton, LegalFrame, hlen]
    omega

end Ending

/-- Settles O33: every operation that ends has one of the endings, and each clause is a fact about those. -/
theorem responseShape : Obligations.ResponseShape := by
  refine ⟨fun s t i h => ?_, rfl⟩
  obtain ⟨r, new, hend, htrace, hsent⟩ := exec_ending h
  refine ⟨r, htrace, ?_, ?_, ?_, ?_, ?_, ?_, ?_, ?_, ?_⟩
  · rintro ⟨c, d, rfl⟩
    exact hend.pack_status
  · rintro rfl
    exact hend.flush_status
  · rintro rfl
    exact hend.reset_status
  · rintro rfl
    exact hend.reserved_status
  · rcases hend.bytesSent_cases with hzero | ⟨-, -, hbytes, hfits⟩ <;> omega
  · intro hbytes
    rcases hend.bytesSent_cases with hzero | ⟨hflush, hok, -⟩
    · exact absurd hzero hbytes
    · exact ⟨hflush, hok⟩
  · rintro rfl hok
    simpa [hsent] using hend.flush_ok hok
  · rcases hend.terr_cases with ⟨hnone, hstatus⟩ | ⟨frame, e, hsome, hstatus, -⟩
    · simp [hnone, hstatus]
    · simp [hsome, hstatus]
  · intro e he
    rcases hend.terr_cases with ⟨hnone, -⟩ | ⟨frame, e', hsome, -, hnew⟩
    · simp [hnone] at he
    · obtain rfl : e' = e := Option.some.inj (hsome.symm.trans he)
      exact ⟨frame, hnew ▸ hsent⟩

theorem exec_keeps_framesLegal {i : Instr} {s t : State} (hs : FramesLegal s) (h : exec i s = .next t) :
    FramesLegal t := by
  obtain ⟨r, new, hend, -, hsent⟩ := exec_ending h
  rw [FramesLegal, hsent, exec_cap h, List.forall_mem_append]
  exact ⟨hs, hend.new_legal⟩

/-- Settles O42: an operation hands over no frame, or the frame of FLUSH, which is whole groups within the capacity
(`Ending.new_legal`). -/
theorem stepKeepsFramesLegal : Obligations.StepKeepsFramesLegal := fun _ _ =>
  step_preserves (P := FramesLegal) (fun _ hs => hs) (fun _ hs => hs) (fun _ _ _ => exec_keeps_framesLegal)

end Sys2Proof.Machine

/-! ## PACK: refused, or one symbol more (spec/40_pack.md R72 to R76) -/

namespace Sys2Proof.Machine

/-! ### The refusals -/

/-- A PACK that finds the flag set, or no room, is refused before it touches the buffer (R73, R74). -/
theorem exec_pack_overflow (c : Bit) (d : Byte) {s : State} (h : s.ovf = true ∨ packFits s = false) :
    exec (.pack c d) s = .next (raiseError (.pack c d) .bufferOverflow s) := by
  show execPack c d s = _
  rw [execPack]
  split
  · rfl
  · rw [h.resolve_left ‹_›, if_neg Bool.false_ne_true]

/-- A FLUSH that finds the flag set, or no room for the padded transaction, is refused before any padding
(R88, R97). -/
theorem exec_flush_overflow {s : State} (h : s.ovf = true ∨ flushFits s = false) :
    exec .flush s = .next (raiseError .flush .bufferOverflow s) := by
  show execFlush s = _
  rw [execFlush]
  split
  · rfl
  · rw [h.resolve_left ‹_›, if_neg Bool.false_ne_true]

/-- Where the flag is set already, an overflow only returns its response. -/
theorem raiseError_of_overflowed (i : Instr) {s : State} (hovf : s.ovf = true) :
    raiseError i .bufferOverflow s = withResponse i overflowResponse s := by
  rw [raiseError_eq, withResponse, ← hovf]
  rfl

/-- Settles O17: with the flag set both are refused, and setting the flag again changes nothing. -/
theorem overflowedBlockRefusesPackAndFlush : Obligations.OverflowedBlockRefusesPackAndFlush := by
  intro s hovf
  refine ⟨fun c d => ?_, ?_⟩
  · rw [exec_pack_overflow c d (.inl hovf), raiseError_of_overflowed _ hovf]
  · rw [exec_flush_overflow (.inl hovf), raiseError_of_overflowed _ hovf]

/-! ### The symbol appended -/

/-- A PACK that fits answers; the count, the buffer and the record are all that changed, and the buffer holds the
symbol behind those before (R72). -/
theorem exec_pack_fits {s : State} {x : List Symbol} (c : Bit) (d : Byte) (hx : Holds s x) (hovf : s.ovf = false)
    (hfit : byteIndex s.n + 2 ≤ s.cap) :
    ∃ t, exec (.pack c d) s = .next t ∧
      t = { s with
        n := s.n + 1, mem := t.mem, trace := s.trace ++ [.returned (.pack c d) ⟨.ok, 0, none⟩] } ∧
      Holds t (x ++ [⟨c, d⟩]) := by
  refine ⟨_, exec_pack_of_holds ⟨c, d⟩ hx hovf ((fits_iff_lt_nmax _ _).1 hfit), ?_,
    (holds_withSymbols s _).congr rfl rfl⟩
  simp [respond, State.withSymbols, hx.1, packOf, okResponse]

/-- A buffer that holds `x` reads as the packed bytes of `x`, up to its length. -/
theorem Holds.read_mem {s : State} {x : List Symbol} (h : Holds s x) (j : Nat) :
    Memory.read s.mem j = if j < lenOf s.n then some (packedByte x j) else none := by
  rw [h.2, Memory.read_ofBytes, getElem?_encodeStream, h.1]

/-- A buffer that holds one more symbol counts one more. -/
theorem Holds.count_snoc {s t : State} {x : List Symbol} {y : Symbol} (hs : Holds s x) (ht : Holds t (x ++ [y])) :
    t.n = s.n + 1 := by
  rw [← ht.1, ← hs.1, List.length_append, List.length_singleton]

/-- One more symbol leaves the stream bits of those before it. -/
theorem Holds.streamBit_snoc_below {s t : State} {x : List Symbol} {y : Symbol} (hs : Holds s x)
    (ht : Holds t (x ++ [y])) {k : Nat} (hk : k < 9 * s.n) :
    Memory.streamBit t.mem k = Memory.streamBit s.mem k := by
  rw [ht.streamBit, hs.streamBit, symbolBit_append_left _ _ _ (hs.1 ▸ hk), hs.count_snoc ht, lenOf, lenOf,
    if_pos (by omega), if_pos (by omega)]

/-- The last symbol of a buffer is its last nine stream bits, the highest first (R51). -/
theorem Holds.streamBit_snoc {s t : State} {x : List Symbol} {y : Symbol} (hs : Holds s x)
    (ht : Holds t (x ++ [y])) {j : Nat} (hj : j < 9) :
    Memory.streamBit t.mem (9 * s.n + j) = some ((symbolValue y).getLsbD (8 - j)) := by
  rw [ht.streamBit, hs.count_snoc ht, lenOf, if_pos (by omega), ← hs.1, symbolBit_append_right,
    symbolBit_singleton y j hj]

/-- A sequence of operations ends in a next state when its first does and the rest ends there from it. -/
theorem execAll_cons_eq_next {i : Instr} {is : List Instr} {s u : State} :
    execAll (i :: is) s = .next u ↔ ∃ t, exec i s = .next t ∧ execAll is t = .next u := by
  rw [execAll]
  cases exec i s <;> simp

/-- What every operation keeps, every sequence of operations keeps. -/
theorem execAll_preserves {P : State → Prop} (hexec : ∀ s t i, P s → exec i s = .next t → P t)
    {is : List Instr} {s u : State} (hs : P s) (h : execAll is s = .next u) : P u := by
  induction is generalizing s with
  | nil =>
    cases h
    exact hs
  | cons i is ih =>
    obtain ⟨t, hfirst, hrest⟩ := execAll_cons_eq_next.1 h
    exact ih (hexec s t i hs hfirst) hrest

/-- Settles O14: before and after, the buffer is an encoding, so its bits are those of the stream
(`Holds.streamBit_snoc`); the alignment is a fact of every well-formed state, and operations keep those. -/
theorem packAppendsSymbolBits : Obligations.PackAppendsSymbolBits := by
  intro s x c d hwf hx hovf hfit
  obtain ⟨t, hexec, hframe, ht⟩ := exec_pack_fits c d hx hovf hfit
  have hcount := hx.count_snoc ht
  refine ⟨t, hexec, hframe, ?_, ht.length_mem, fun k => hx.streamBit_snoc_below ht, ?_, fun j hj => ?_,
    fun k hk => ht.streamBit_beyond_cursor (by omega), fun is u hrun => ?_, ht⟩
  · rw [ht.length_mem, hcount, lenOf_succ]
  · rw [← getLsbD_symbolValue_control c d]
    exact hx.streamBit_snoc ht (j := 0) (by decide)
  · rw [Nat.add_assoc, hx.streamBit_snoc ht (by omega), getLsbD_symbolValue_payload _ _ (by omega)]
    congr 2
    omega
  · have hwf' : WF u := execAll_preserves (fun _ _ _ => exec_keeps_wf) (exec_keeps_wf hwf hexec) hrun
    obtain ⟨-, hlen, -, -⟩ := hwf'
    rw [hlen, lenOf_mod_nine_eq_zero]

/-! ### The two bytes written -/

/-- Beyond the cursor the byte it stands in is zero: those are its low `8 - o` bits (R15). -/
theorem getLsbD_packedByte_cursor (x : List Symbol) {b : Nat} (hb : b < 8 - bitOffset x.length) :
    (packedByte x (byteIndex x.length)).getLsbD b = false := by
  rw [bitOffset_eq] at hb
  rw [getLsbD_packedByte _ _ _ (by omega), byteIndex_eq, symbolBit_of_ge _ _ (by omega)]

/-- One more symbol changes no byte but the two at the cursor (R35). -/
theorem Holds.read_snoc_other {s t : State} {x : List Symbol} {y : Symbol} (hs : Holds s x)
    (ht : Holds t (x ++ [y])) {a : Nat} (hfirst : a ≠ byteIndex s.n) (hsecond : a ≠ byteIndex s.n + 1) :
    Memory.read t.mem a = Memory.read s.mem a := by
  have hlen : byteIndex s.n ≤ lenOf s.n ∧ lenOf s.n ≤ byteIndex s.n + 1 := by
    rw [lenOf_eq]
    split <;> omega
  rw [ht.read_mem, hs.read_mem, hs.count_snoc ht, lenOf_succ]
  rcases Nat.lt_or_ge a (byteIndex s.n) with hbelow | habove
  · rw [if_pos (by omega), if_pos (by omega), packedByte_snoc_below _ _ _ (hs.1 ▸ hbelow)]
  · rw [if_neg (by omega), if_neg (by omega)]

/-- Settles O15: the bytes at the cursor of an encoding with one more symbol are the window's (`packedByte_snoc_first`,
`packedByte_snoc_second`), and the window's bytes are the table's. -/
theorem packWritesTableBytes : Obligations.PackWritesTableBytes := by
  intro s c d k o hwf hovf hn ho hroom
  obtain ⟨-, x, hx⟩ := (wf_iff s).1 hwf
  have hindex : 9 * k + o = byteIndex s.n := by
    rw [byteIndex_eq]
    omega
  have hoffset : o = bitOffset s.n := by
    rw [bitOffset_eq]
    omega
  rw [hindex] at hroom ⊢
  obtain ⟨t, hexec, -, ht⟩ := exec_pack_fits c d hx hovf hroom
  have hcount := hx.count_snoc ht
  have hlen : t.mem.length = byteIndex s.n + 2 := by rw [ht.length_mem, hcount, lenOf_succ]
  refine ⟨t, packedByte x (byteIndex s.n), hexec, hcount, ?_, fun b hb => ?_, hlen, ?_, ?_, ?_,
    fun a => hx.read_snoc_other ht⟩
  · split
    · rw [← hx.1, packedByte_at_end x (by rw [hx.1]; omega)]
    · rw [hx.read_mem, if_pos (by rw [lenOf_eq, if_neg (by omega)]; omega)]
  · rw [← hx.1]
    exact getLsbD_packedByte_cursor x (by rwa [hx.1, ← hoffset])
  · rw [hlen, hx.length_mem, lenOf_eq, ← hoffset]
    split <;> rfl
  · rw [ht.read_mem, hcount, lenOf_succ, if_pos (by omega), tableHigh_eq_windowHigh ho, hoffset, ← hx.1,
      packedByte_snoc_first]
  · rw [ht.read_mem, hcount, lenOf_succ, if_pos (by omega), tableLow_eq_windowLow ho c, hoffset, ← hx.1,
      packedByte_snoc_second]

/-! ### The capacity test -/

/-- The capacity test in its other forms: on the new length, on the cursor's byte written out, and twice on the
count (R73). -/
theorem pack_overflow_iff {n cap : Nat} (hn : n ≤ nmax cap) :
    (cap < byteIndex n + 2 ↔ cap < lenOf (n + 1)) ∧ (cap < byteIndex n + 2 ↔ cap < n + n / 8 + 2) ∧
      (cap < byteIndex n + 2 ↔ 8 * cap / 9 < n + 1) ∧ (cap < byteIndex n + 2 ↔ n = nmax cap) := by
  have hfits := fits_iff_lt_nmax n cap
  have hfull : cap < byteIndex n + 2 ↔ nmax cap < n + 1 := by omega
  refine ⟨?_, ?_, hfull, ?_⟩
  · rw [lenOf_succ]
  · rw [byteIndex_eq]
  · omega

/-- Settles O16: the forms of the test are arithmetic on the count (`pack_overflow_iff`); where the symbol
does not fit PACK is refused, and where it fits PACK answers Ok. -/
theorem packOverflowsExactlyAtLimit : Obligations.PackOverflowsExactlyAtLimit := by
  refine ⟨fun s c d hwf hovf => ?_, by decide⟩
  obtain ⟨hn, x, hx⟩ := (wf_iff s).1 hwf
  obtain ⟨hlength, hgroup, hlimit, hcount⟩ := pack_overflow_iff hn
  refine ⟨hlength, hgroup, hlimit, hcount, fun hfull => ?_, fun hfit => ?_⟩
  · rw [exec_pack_overflow c d (.inr ((packFits_eq_false s).2 hfull))]
    rfl
  · obtain ⟨t, hexec, hframe, -⟩ := exec_pack_fits c d hx hovf hfit
    exact ⟨t, hexec, by rw [hframe]⟩

end Sys2Proof.Machine

/-! ## FLUSH: refused, nothing to send, or one frame handed over (spec/41_flush.md R86 to R93) -/

namespace Sys2Proof.Machine

/-! ### The padded length -/

/-- The frame's length in groups: every group begun is sent whole (R86). -/
theorem length_frame_of_holds {s : State} {x : List Symbol} (hx : Holds s x) :
    (encodeStream (withFillers x)).length = 9 * ((s.n + 7) / 8) := by
  rw [length_frame, hx.1, paddedLen_eq]

/-- FLUSH's capacity test is PACK's, made for the last filler (R88, R73). -/
theorem paddedLen_le_iff (n cap : Nat) : paddedLen n ≤ cap ↔ n + padding n ≤ nmax cap := by
  rw [paddedLen_eq, nmax, padding, phase]
  omega

theorem phase_add_padding (n : Nat) : (n + padding n) % 8 = 0 := by
  rw [padding, phase]
  omega

/-- On the boundary nothing is padded (R87, R90). -/
theorem padding_of_aligned {n : Nat} (h : n % 8 = 0) : padding n = 0 ∧ paddedLen n = lenOf n := by
  rw [paddedLen_eq, padding, phase, lenOf]
  omega

/-- Off the boundary between 1 and 7 fillers are needed, and each adds one byte (R87). -/
theorem padding_of_unaligned {n : Nat} (h : n % 8 ≠ 0) :
    1 ≤ padding n ∧ padding n ≤ 7 ∧ paddedLen n - lenOf n = padding n := by
  have hlen : lenOf n = n + n / 8 + 1 := by rw [lenOf_eq, byteIndex_eq, bitOffset_eq, if_neg h]
  rw [paddedLen_eq, padding, phase, hlen]
  omega

/-- On the boundary, and for a capacity of whole groups, what fits unpadded fits padded (R88). -/
theorem padded_fits_of_wf {s : State} (hwf : WF s) (h : s.cap % 9 = 0 ∨ s.n % 8 = 0) :
    9 * ((s.n + 7) / 8) ≤ s.cap := by
  obtain ⟨hcount, -⟩ := (wf_iff s).1 hwf
  rw [nmax] at hcount
  omega

/-- The frame of whole groups is their encoding (R90). -/
theorem withFillers_of_aligned {x : List Symbol} (h : x.length % 8 = 0) : withFillers x = x := by
  rw [withFillers, (padding_of_aligned h).1, List.replicate_zero, List.append_nil]

/-! ### How FLUSH ends -/

/-- A FLUSH of an empty buffer only returns its response (R89). -/
theorem exec_flush_empty {s : State} (hn : s.n = 0) (hovf : s.ovf = false) :
    exec .flush s = .next (withResponse .flush ⟨.ok, 0, none⟩ s) := by
  have hzero : paddedLen s.n = 0 := (paddedLen_eq_zero _).2 hn
  have hfits : flushFits s = true := (flushFits_eq_true s).2 (by omega)
  show execFlush s = _
  rw [execFlush, hovf, if_neg Bool.false_ne_true, if_pos hfits, if_pos hzero]
  rfl

/-- A FLUSH whose padded transaction does not fit sets the flag, returns its response and does nothing else (R88). -/
theorem exec_flush_too_long {s : State} (hfull : s.cap < 9 * ((s.n + 7) / 8)) :
    exec .flush s = .next { s with
      ovf := true, trace := s.trace ++ [.returned .flush overflowResponse] } := by
  rw [← paddedLen_eq] at hfull
  exact exec_flush_overflow (.inr ((flushFits_eq_false s).2 hfull))

/-- A FLUSH of a non-empty transaction that fits, and that is answered, hands the frame over (R86, R91). -/
theorem exec_flush_of_holds {s : State} {x : List Symbol} (hx : Holds s x) (hovf : s.ovf = false) (hn : 0 < s.n)
    (hfit : 9 * ((s.n + 7) / 8) ≤ s.cap) (hanswers : TransportAnswers s) :
    exec .flush s = .next (flushed s (encodeStream (withFillers x))) := by
  rw [← paddedLen_eq] at hfit
  have hnonzero : paddedLen s.n ≠ 0 := mt (paddedLen_eq_zero _).1 (by omega)
  show execFlush s = _
  rw [execFlush, hovf, if_neg Bool.false_ne_true, if_pos ((flushFits_eq_true s).2 hfit), if_neg hnonzero,
    formFrame_of_holds hx hfit, Except.bind, handOff_of_transportAnswers _ hanswers, settle]

/-! ### The state after the hand-over -/

section
variable (s : State) (frame : List Byte)

@[simp] theorem flushed_cap : (flushed s frame).cap = s.cap := rfl
@[simp] theorem flushed_sent : (flushed s frame).sent = s.sent ++ [(frame, nextAnswer s frame)] := rfl
@[simp] theorem flushed_transport : (flushed s frame).transport = s.transport.tail := rfl
@[simp] theorem flushed_trace :
    (flushed s frame).trace =
      s.trace ++ [.returned .flush (flushResponse frame.length (nextAnswer s frame))] := rfl

end

/-- The hand-over leaves the block reset, whatever the answer (R92, R93). -/
theorem initial_flushed {s : State} (frame : List Byte) (hovf : s.ovf = false) : Initial (flushed s frame) :=
  ⟨rfl, rfl, hovf⟩

/-- A reply that is fixed is the answer to the next frame, whatever the frame (R143). -/
theorem nextAnswer_of_fixed {s : State} {a : Config.Answer} {rest : List Config.Reply}
    (h : s.transport = .answers a :: rest) (frame : List Byte) : nextAnswer s frame = a := by
  rw [nextAnswer, h]

theorem transportAnswers_of_fixed {s : State} {a : Config.Answer} {rest : List Config.Reply}
    (h : s.transport = .answers a :: rest) : TransportAnswers s := by
  simp [TransportAnswers, h]

/-! ### The statements -/

/-- Settles O22: FLUSH ends in `flushed`, whose fields are those of the statement. -/
theorem flushHandsOverPaddedTransaction : Obligations.FlushHandsOverPaddedTransaction := by
  intro s x hx hovf hn hfit hanswers
  rw [exec_flush_of_holds hx hovf hn hfit hanswers, ← length_frame_of_holds hx]
  rfl

/-- Settles O23: the fillers are PACKs that fit (`paddedLen_le_iff`), and `withFillers` is the list of symbols
that they leave in the buffer. -/
theorem paddingIsPackingFillers : Obligations.PaddingIsPackingFillers := by
  intro s x hx hovf hfit
  refine ⟨?_, padding_of_aligned, padding_of_unaligned, ?_⟩
  · rw [hx.bytes_mem, encodeStream_withFillers, hx.1]
  · obtain ⟨t, hrun, ht, -⟩ := execAll_packs (List.replicate (padding s.n) Config.fill) hx hovf
      (by rwa [List.length_replicate, ← paddedLen_le_iff])
    rw [List.map_replicate] at hrun
    refine ⟨t, hrun, ?_, ?_⟩
    · rw [ht.2, withFillers, hx.1]
    · rw [← ht.1, List.length_append, List.length_replicate, hx.1, phase_add_padding]

/-- At capacity 17 the ninth symbol is the first of a second group, and unpadded it still fits (R88). -/
theorem nine_packs_at_seventeen {y : List Symbol} (hy : y.length = 9) :
    ∃ t, execAll (y.map packOf) (State.construct 17) = .next t ∧ Holds t y ∧ t.ovf = false ∧ t.cap = 17 := by
  obtain ⟨t, hrun, ht, hovf⟩ := execAll_packs y (holds_nil (s := State.construct 17) rfl rfl) rfl
    (by rw [hy]; decide)
  have hcap : t.cap = 17 :=
    execAll_preserves (P := fun u => u.cap = 17) (fun _ _ _ hu hexec => (exec_cap hexec).trans hu) rfl hrun
  exact ⟨t, hrun, ht, hovf, hcap⟩

/-- Settles O24: the test on the padded length refuses FLUSH before any padding; in the example it asks for
18 bytes at capacity 17. -/
theorem flushOverflowsBeforePadding : Obligations.FlushOverflowsBeforePadding := by
  refine ⟨fun s _ => exec_flush_too_long, fun s => padded_fits_of_wf, fun y hy => ?_⟩
  obtain ⟨t, hrun, ht, hovf, hcap⟩ := nine_packs_at_seventeen hy
  have hcount : t.n = 9 := ht.1.symm.trans hy
  refine ⟨t, hrun, hovf, ?_, exec_flush_too_long (by omega)⟩
  rw [ht.length_mem, hcount, lenOf]

/-- Settles O25, by induction on the number of FLUSHes: each leaves the buffer empty for the next. -/
theorem emptyFlushIsNoOp : Obligations.EmptyFlushIsNoOp := by
  intro s k hn hovf
  induction k generalizing s with
  | zero => simp [execAll]
  | succ k ih =>
    rw [List.replicate_succ, execAll_cons_eq_next]
    refine ⟨_, exec_flush_empty hn hovf, ?_⟩
    rw [ih (withResponse .flush ⟨.ok, 0, none⟩ s) hn hovf]
    simp [withResponse, List.replicate_succ]

/-- Settles O26: with no filler to add, the frame is the encoding in the buffer. -/
theorem alignedFlushSendsBufferAsItStands : Obligations.AlignedFlushSendsBufferAsItStands := by
  intro s hwf hovf hn haligned hanswers
  obtain ⟨-, x, hx⟩ := (wf_iff s).1 hwf
  have hframe : encodeStream (withFillers x) = s.mem.bytes := by
    rw [withFillers_of_aligned (hx.1 ▸ haligned), hx.bytes_mem]
  have hexec := exec_flush_of_holds hx hovf hn (padded_fits_of_wf hwf (.inr haligned)) hanswers
  refine ⟨?_, flushed s s.mem.bytes, hframe ▸ hexec, initial_flushed _ hovf, rfl, rfl⟩
  rw [← hframe, length_frame_of_holds hx]
  omega

/-- Settles O27: the state after the hand-over is the reset state for either answer, which is only passed on to
the response. -/
theorem flushEndsAsTransportAnswers : Obligations.FlushEndsAsTransportAnswers := by
  intro s a rest hwf hovf hn hfit hreply
  obtain ⟨-, x, hx⟩ := (wf_iff s).1 hwf
  have hlength := length_frame_of_holds hx
  have hexec := exec_flush_of_holds hx hovf hn hfit (transportAnswers_of_fixed hreply)
  have hanswer := nextAnswer_of_fixed hreply (encodeStream (withFillers x))
  refine ⟨_, encodeStream (withFillers x), hexec, initial_flushed _ hovf, flushed_cap _ _, ?_, ?_, by omega, hlength,
    fun hok => ?_, fun e herr => ?_⟩
  · rw [flushed_sent, hanswer]
  · rw [flushed_transport, hreply, List.tail_cons]
  · rw [flushed_trace, hanswer, hok, flushResponse]
  · rw [flushed_trace, hanswer, herr, flushResponse]

end Sys2Proof.Machine

/-! ## Lists of PACKs (spec/42_group_encoder.md R103, R104) -/

namespace Sys2Proof.Machine

/-- The state after the PACKs of `y` on a buffer that holds `x`: their symbols behind `x`, and an Ok for each in the
record. -/
def State.afterPacks (s : State) (x y : List Symbol) : State :=
  { s.withSymbols (x ++ y) with trace := s.trace ++ y.map fun z => .returned (packOf z) ⟨.ok, 0, none⟩ }

@[simp] theorem State.afterPacks_n (s : State) (x y : List Symbol) :
    (s.afterPacks x y).n = x.length + y.length := List.length_append
@[simp] theorem State.afterPacks_mem (s : State) (x y : List Symbol) :
    (s.afterPacks x y).mem = Memory.ofBytes (encodeStream (x ++ y)) := rfl

theorem State.afterPacks_nil {s : State} {x : List Symbol} (hx : Holds s x) : s.afterPacks x [] = s := by
  obtain ⟨hn, hmem⟩ := hx
  simp [State.afterPacks, State.withSymbols, hn, ← hmem]

/-- One PACK and then the rest is all of them. -/
theorem State.afterPacks_cons (s : State) (x y : List Symbol) (z : Symbol) :
    (respond (packOf z) (okResponse 0) (s.withSymbols (x ++ [z]))).afterPacks (x ++ [z]) y =
      s.afterPacks x (z :: y) := by
  simp [State.afterPacks, State.withSymbols, respond, okResponse]

/-- PACKs that fit, one after the other: the whole next state (R104). -/
theorem execAll_packs_eq {s : State} {x : List Symbol} (y : List Symbol) (hx : Holds s x) (hovf : s.ovf = false)
    (hroom : s.n + y.length ≤ nmax s.cap) : execAll (y.map packOf) s = .next (s.afterPacks x y) := by
  induction y generalizing s x with
  | nil => rw [State.afterPacks_nil hx, List.map_nil, execAll]
  | cons z y ih =>
    rw [List.length_cons] at hroom
    have hholds : Holds (respond (packOf z) (okResponse 0) (s.withSymbols (x ++ [z]))) (x ++ [z]) :=
      (holds_withSymbols s _).congr rfl rfl
    rw [List.map_cons, execAll_cons_eq_next]
    refine ⟨_, exec_pack_of_holds z hx hovf (by omega), ?_⟩
    rw [ih hholds hovf (by simp [hx.1]; omega), State.afterPacks_cons]

/-- Settles O19: `execAll_packs_eq`, with the fields of `afterPacks` written out. -/
theorem packSequenceEncodesSymbols : Obligations.PackSequenceEncodesSymbols := by
  intro s x y hx hovf hroom
  rw [execAll_packs_eq y hx hovf hroom, State.afterPacks, State.withSymbols, List.length_append, hx.1]

end Sys2Proof.Machine

/-! ## ENCODE: its length, and what each of its bytes depends on (spec/42_group_encoder.md R104 to R109) -/

namespace Sys2Proof.Machine

/-! ### Bytes -/

/-- Byte `j` is in the encoding exactly when the symbol that holds its first bit is in the list. -/
theorem lt_lenOf_iff (n j : Nat) : j < lenOf n ↔ 8 * j / 9 < n := by
  rw [lenOf]
  omega

/-- Beyond the encoding's end the packed stream goes on with zero bytes. -/
theorem packedByte_of_ge (x : List Symbol) {j : Nat} (h : lenOf x.length ≤ j) : packedByte x j = 0 := by
  refine byte_ext fun t ht => ?_
  rw [lenOf] at h
  rw [getLsbD_packedByte _ _ _ (by omega), symbolBit_of_ge _ _ (by omega)]
  simp

/-- Every byte of the encoding, with zeros beyond its end, is the packed stream's. -/
theorem getD_encodeStream (x : List Symbol) (j : Nat) : (encodeStream x).getD j 0 = packedByte x j := by
  rw [List.getD_eq_getElem?_getD, getElem?_encodeStream]
  split
  · rfl
  · rw [packedByte_of_ge x (by omega)]
    rfl

/-- Every bit of the encoding, with zeros beyond its end, is the stream's, the first of a byte at bit 7 (R52). -/
theorem getLsbD_getD_encodeStream (x : List Symbol) (j : Nat) {t : Nat} (ht : t < 8) :
    ((encodeStream x).getD j 0).getLsbD (7 - t) = symbolBit x (8 * j + t) := by
  rw [getD_encodeStream, getLsbD_packedByte _ _ _ (by omega)]
  congr 2
  omega

/-- Two bytes of packed streams are equal when the streams agree in the bytes' eight bits. -/
theorem packedByte_congr {x y : List Symbol} {i j : Nat}
    (h : ∀ t, t < 8 → symbolBit x (8 * i + t) = symbolBit y (8 * j + t)) : packedByte x i = packedByte y j := by
  refine byte_ext fun t ht => ?_
  rw [getLsbD_packedByte _ _ _ (by omega), getLsbD_packedByte _ _ _ (by omega)]
  exact h _ (by omega)

/-! ### The length law -/

theorem lenOf_mod_nine_ne_one (n : Nat) : lenOf n % 9 ≠ 1 := by
  rw [lenOf]
  omega

/-- Settles O54: the length is a function of the count alone, and what it is modulo 9 is arithmetic. -/
theorem lengthLaw : Obligations.LengthLaw := by
  refine ⟨fun x => ?_, fun s hs => ?_⟩
  · rw [length_encodeStream]
    exact ⟨rfl, lenOf_mod_nine_eq_zero _, lenOf_mod_nine_ne_one _⟩
  · obtain ⟨-, hlen, -, -⟩ := hs
    rw [hlen]
    exact lenOf_mod_nine_ne_one _

/-! ### Finalized bytes -/

/-- More symbols change no byte below the cursor, and the encoding keeps it (R107). -/
theorem getElem?_encodeStream_append_below (x y : List Symbol) {j : Nat} (h : j < byteIndex x.length) :
    (encodeStream (x ++ y))[j]? = (encodeStream x)[j]? := by
  rw [byteIndex_eq] at h
  have hbyte : packedByte (x ++ y) j = packedByte x j :=
    packedByte_congr fun t ht => symbolBit_append_left _ _ _ (by omega)
  rw [getElem?_encodeStream, getElem?_encodeStream, hbyte, List.length_append,
    if_pos ((lt_lenOf_iff _ _).2 (by omega)), if_pos ((lt_lenOf_iff _ _).2 (by omega))]

/-- Settles O52: bits below the cursor are those of the first symbols alone (`symbolBit_append_left`), in the finalized
bytes and in the byte at the cursor. -/
theorem prefixLaw : Obligations.PrefixLaw := by
  intro x y
  refine ⟨List.ext_getElem? fun j => ?_, fun t ht => ?_⟩
  · rw [List.getElem?_take, List.getElem?_take]
    split
    · exact getElem?_encodeStream_append_below x y ‹_›
    · rfl
  · rw [getLsbD_getD_encodeStream _ _ (by omega), getLsbD_getD_encodeStream _ _ (by omega),
      symbolBit_append_left _ _ _ (by omega)]

/-! ### The group independence law -/

/-- Symbols that agree over a group make the same group. -/
theorem groupAt_congr {x y : List Symbol} {g : Nat} (h : ∀ k, 8 * g ≤ k → k < 8 * g + 8 → x[k]? = y[k]?) :
    groupAt x g = groupAt y g := by
  refine Vector.ext fun k hk => ?_
  rw [getElem_groupAt, getElem_groupAt, List.getD_eq_getElem?_getD, List.getD_eq_getElem?_getD,
    h _ (by omega) (by omega)]

/-- Bytes `9g` to `9g + 8` depend only on symbols `8g` to `8g + 7` (R108). -/
theorem encodeStream_congr_of_group {x y : List Symbol} {g j : Nat}
    (h : ∀ k, 8 * g ≤ k → k < 8 * g + 8 → x[k]? = y[k]?) (hfrom : 9 * g ≤ j) (hto : j < 9 * g + 9) :
    (encodeStream x)[j]? = (encodeStream y)[j]? := by
  have hpresent : 8 * j / 9 < x.length ↔ 8 * j / 9 < y.length := by
    rw [← not_iff_not, Nat.not_lt, Nat.not_lt, ← List.getElem?_eq_none_iff, ← List.getElem?_eq_none_iff,
      h _ (by omega) (by omega)]
  have hbyte : packedByte x j = packedByte y j := by
    obtain ⟨i, rfl⟩ := Nat.exists_eq_add_of_le hfrom
    rw [packedByte_eq_encode8 x g (by omega), packedByte_eq_encode8 y g (by omega), groupAt_congr h]
  simp only [getElem?_encodeStream, lt_lenOf_iff, hpresent, hbyte]

/-- Setting symbol `k` changes only its own nine stream bits. -/
theorem symbolBit_set_other (x : List Symbol) (y : Symbol) {k p : Nat} (h : p / 9 ≠ k) :
    symbolBit (x.set k y) p = symbolBit x p := by
  rw [symbolBit, symbolBit, List.getElem?_set_ne (Ne.symm h)]

/-- Setting symbol `k` changes only the byte its first bit lies in and the next (R108). -/
theorem getElem?_encodeStream_set_other (x : List Symbol) (y : Symbol) {k j : Nat} (hfirst : j ≠ k + k / 8)
    (hsecond : j ≠ k + k / 8 + 1) : (encodeStream (x.set k y))[j]? = (encodeStream x)[j]? := by
  have hbyte : packedByte (x.set k y) j = packedByte x j :=
    packedByte_congr fun t ht => symbolBit_set_other x y (by omega)
  rw [getElem?_encodeStream, getElem?_encodeStream, List.length_set, hbyte]

/-- Fillers come behind the symbols, so setting a symbol commutes with adding them. -/
theorem withFillers_set (x : List Symbol) (y : Symbol) {k : Nat} (hk : k < x.length) :
    withFillers (x.set k y) = (withFillers x).set k y := by
  rw [withFillers, withFillers, List.length_set, List.set_append_left _ _ hk]

/-- Settles O53: a group's bytes are ENCODE8 of its symbols, and a symbol's nine bits lie in two bytes; the frame is the
encoding of the symbols with their fillers, of which one is set. -/
theorem groupIndependenceLaw : Obligations.GroupIndependenceLaw := by
  refine ⟨fun x y g j => encodeStream_congr_of_group, fun x k j y => getElem?_encodeStream_set_other x y,
    fun x k j y hfirst hsecond => ?_⟩
  rcases Nat.lt_or_ge k x.length with hinside | hbeyond
  · rw [withFillers_set x y hinside, getElem?_encodeStream_set_other _ y hfirst hsecond]
  · rw [List.set_eq_of_length_le hbeyond]

end Sys2Proof.Machine

/-! ## ENCODE8 and ENCODE by groups (spec/42_group_encoder.md R100, R103, R104) -/

namespace Sys2Proof.Machine

/-! ### One group -/

/-- A list of eight symbols is its own group. -/
theorem groupAt_toList (g : Vector Symbol 8) : groupAt g.toList 0 = g := by
  refine Vector.ext fun k hk => ?_
  rw [getElem_groupAt, List.getD_eq_getElem _ _ (by simpa using hk), Vector.getElem_toList]
  simp

theorem packedByte_first_group (x : List Symbol) {j : Nat} (hj : j < 9) :
    packedByte x j = (encode8 (groupAt x 0))[j] := by
  simpa using packedByte_eq_encode8 x 0 hj

/-- The bytes of ENCODE8 are those of the group's packed stream (R100). -/
theorem getElem_encode8 (g : Vector Symbol 8) {j : Nat} (hj : j < 9) : (encode8 g)[j] = packedByte g.toList j := by
  rw [packedByte_first_group _ hj]
  simp only [groupAt_toList]

/-- The first bytes of a group's ENCODE8 are the encoding of a list of at most eight symbols that the group completes
with fillers (R104). -/
theorem encodeStream_short {r : List Symbol} (h : r.length ≤ 8) :
    encodeStream r = (encode8 (groupAt r 0)).toList.take (lenOf r.length) := by
  have hlen : lenOf r.length ≤ 9 := by
    rw [lenOf]
    omega
  refine List.ext_getElem (by simpa using hlen) fun j hleft hright => ?_
  rw [length_encodeStream] at hleft
  rw [List.getElem_take, Vector.getElem_toList, ← packedByte_first_group r (by omega)]
  simp [encodeStream]

/-- ENCODE of one group is its ENCODE8. -/
theorem encodeStream_toList (g : Vector Symbol 8) : encodeStream g.toList = (encode8 g).toList := by
  rw [encodeStream_short (by simp), groupAt_toList, List.take_of_length_le (by simp [lenOf])]

/-! ### Whole groups and a rest -/

/-- Behind whole groups an encoding starts afresh. -/
theorem encodeStream_append_of_aligned {x : List Symbol} (y : List Symbol) (h : x.length % 8 = 0) :
    encodeStream (x ++ y) = encodeStream x ++ encodeStream y := by
  have hlength : lenOf (x ++ y).length = lenOf x.length + lenOf y.length := by
    rw [List.length_append, lenOf, lenOf, lenOf]
    omega
  have hbits : 8 * lenOf x.length = 9 * x.length := by
    rw [lenOf]
    omega
  refine List.ext_getElem? fun j => ?_
  rw [List.getElem?_append, length_encodeStream, getElem?_encodeStream, getElem?_encodeStream,
    getElem?_encodeStream, hlength]
  rcases Nat.lt_or_ge j (lenOf x.length) with hbelow | habove
  · have hbyte : packedByte (x ++ y) j = packedByte x j :=
      packedByte_congr fun t ht => symbolBit_append_left _ _ _ (by omega)
    rw [if_pos (by omega), if_pos hbelow, if_pos hbelow, hbyte]
  · obtain ⟨i, rfl⟩ := Nat.exists_eq_add_of_le habove
    have hbyte : packedByte (x ++ y) (lenOf x.length + i) = packedByte y i :=
      packedByte_congr fun t ht => by rw [Nat.mul_add, hbits, Nat.add_assoc, symbolBit_append_right]
    rw [if_neg (Nat.not_lt.2 habove), Nat.add_sub_cancel_left, hbyte]
    simp only [Nat.add_lt_add_iff_left]

/-- ENCODE of whole groups is their ENCODE8, one after the other, and the rest follows (R104). -/
theorem encodeStream_groups_append (gs : List (Vector Symbol 8)) (r : List Symbol) :
    encodeStream (gs.flatMap Vector.toList ++ r) = gs.flatMap (fun g => (encode8 g).toList) ++ encodeStream r := by
  induction gs with
  | nil => rfl
  | cons g gs ih =>
    rw [List.flatMap_cons, List.flatMap_cons, List.append_assoc, encodeStream_append_of_aligned _ (by simp), ih,
      encodeStream_toList, List.append_assoc]

/-- ENCODE of a rest shorter than a group (R104). -/
theorem encodeStream_rest {r : List Symbol} (h : r.length < 8) :
    encodeStream r = if r = [] then [] else (encode8 (groupAt r 0)).toList.take (r.length + 1) := by
  split
  · subst r
    exact encodeStream_nil
  · have hpos : r.length ≠ 0 := by simpa
    have hlength : lenOf r.length = r.length + 1 := by
      rw [lenOf]
      omega
    rw [encodeStream_short (by omega), hlength]

/-- Settles O20: behind whole groups the eight symbols' encoding is appended, and it is their ENCODE8. -/
theorem eightPacksAreOneGroup : Obligations.EightPacksAreOneGroup := by
  intro s x g hx hovf haligned hroom
  have hlength : g.toList.length = 8 := Vector.length_toList
  have hcount : (s.afterPacks x g.toList).n = s.n + 8 := by rw [State.afterPacks_n, hlength, hx.1]
  refine ⟨_, execAll_packs_eq g.toList hx hovf (by omega), ?_, hcount, by omega⟩
  rw [State.afterPacks_mem, encodeStream_append_of_aligned _ (hx.1 ▸ haligned), encodeStream_toList, hx.2,
    Memory.length_ofBytes]
  simp [Memory.ofBytes, Memory.ofBytesFrom_append]

/-- Settles O49: the bits are the stream's; PACK makes the buffer hold one symbol more; and behind each whole group the
encoding starts afresh (`encodeStream_append_of_aligned`). -/
theorem streamEncoderLaws : Obligations.StreamEncoderLaws := by
  refine ⟨fun x j t _ ht => ?_, encodeStream_nil, fun s x y hx hovf hroom => ?_, fun gs r hr => ?_⟩
  · rw [getLsbD_getD_encodeStream x j ht]
    split
    · rw [← symbolBit_of_symbol _ _ (Nat.mod_lt _ (by decide)), Nat.div_add_mod]
    · exact symbolBit_of_ge _ _ (by omega)
  · exact ⟨_, exec_pack_of_holds y hx hovf hroom, (holds_withSymbols s _).congr rfl rfl⟩
  · rw [encodeStream_groups_append, encodeStream_rest hr]

end Sys2Proof.Machine

/-! ## DECODE and DECODE8 (spec/42_group_encoder.md R102, R105, R106) -/

namespace Sys2Proof.Machine

/-! ### Symbols and their nine bits -/

/-- A symbol's value gives back the symbol (R50). -/
theorem symbolOfValue_symbolValue (x : Symbol) : symbolOfValue (symbolValue x) = x := by
  have hc : (symbolValue x).extractLsb' 8 1 = x.c := by
    refine BitVec.eq_of_getLsbD_eq fun i hi => ?_
    obtain rfl : i = 0 := by omega
    simpa using getLsbD_symbolValue_control x.c x.d
  have hd : (symbolValue x).extractLsb' 0 8 = x.d := by
    refine BitVec.eq_of_getLsbD_eq fun i hi => ?_
    simpa [hi] using getLsbD_symbolValue_payload x.c x.d hi
  rw [symbolOfValue, hc, hd]

/-- Every 9-bit value is a symbol's value (R50). -/
theorem symbolValue_symbolOfValue (v : SymbolValue) : symbolValue (symbolOfValue v) = v := by
  refine BitVec.eq_of_getLsbD_eq fun i hi => ?_
  rcases Nat.lt_or_ge i 8 with hpayload | hcontrol
  · rw [symbolOfValue, getLsbD_symbolValue_payload _ _ hpayload]
    simp [hpayload]
  · obtain rfl : i = 8 := by omega
    rw [symbolOfValue, getLsbD_symbolValue_control]
    simp

/-- Two symbols are equal when their nine bits are, counted as the stream counts them. -/
theorem symbol_ext {x y : Symbol}
    (h : ∀ j, j < 9 → (symbolValue x).getLsbD (8 - j) = (symbolValue y).getLsbD (8 - j)) : x = y := by
  have hvalue : symbolValue x = symbolValue y := by
    refine BitVec.eq_of_getLsbD_eq fun i hi => ?_
    have hbit := h (8 - i) (by omega)
    rwa [show 8 - (8 - i) = i by omega] at hbit
  rw [← symbolOfValue_symbolValue x, hvalue, symbolOfValue_symbolValue]

/-! ### DECODE reads the stream -/

/-- Stream bit `k` of a list of bytes, with zeros beyond its end: bit `7 - (k mod 8)` of byte `k div 8` (R31). -/
def byteBit (b : List Byte) (k : Nat) : Bool := (b.getD (k / 8) 0).getLsbD (7 - k % 8)

/-- The bits of an encoding are the bits of its symbols' stream. -/
theorem byteBit_encodeStream (x : List Symbol) (k : Nat) : byteBit (encodeStream x) k = symbolBit x k := by
  rw [byteBit, getLsbD_getD_encodeStream x _ (Nat.mod_lt _ (by decide)), Nat.div_add_mod]

/-- Two lists of bytes are equal when they are as long and their stream bits are. -/
theorem bytes_ext {b b' : List Byte} (hlength : b.length = b'.length)
    (h : ∀ k, k < 8 * b.length → byteBit b k = byteBit b' k) : b = b' := by
  refine List.ext_getElem hlength fun j hleft hright => byte_ext fun t ht => ?_
  have hbit := h (8 * j + t) (by omega)
  rwa [byteBit, byteBit, show (8 * j + t) / 8 = j by omega, show (8 * j + t) % 8 = t by omega,
    List.getD_eq_getElem _ _ hleft, List.getD_eq_getElem _ _ hright] at hbit

/-- The 16-bit window of the bytes at the cursor of symbol `k` (R105). -/
def bytePair (b : List Byte) (k : Nat) : BitVec 16 :=
  ((b.getD (byteIndex k) 0).setWidth 16 <<< 8) ||| (b.getD (byteIndex k + 1) 0).setWidth 16

/-- The value of the symbol read is the 9-bit slice of the window (R105). -/
theorem symbolValue_symbolAt (b : List Byte) (k : Nat) :
    symbolValue (symbolAt b k) = (bytePair b k).extractLsb' (7 - bitOffset k) 9 :=
  symbolValue_symbolOfValue _

theorem toNat_bytePair (b : List Byte) (k : Nat) :
    (bytePair b k).toNat = (b.getD (byteIndex k) 0).toNat * 256 + (b.getD (byteIndex k + 1) 0).toNat := by
  rw [bytePair, BitVec.toNat_or, BitVec.toNat_shiftLeft, BitVec.toNat_setWidth, BitVec.toNat_setWidth,
    Nat.mod_eq_of_lt (by omega), Nat.mod_eq_of_lt (by omega), Nat.mod_eq_of_lt (by omega),
    ← Nat.shiftLeft_add_eq_or_of_lt (by omega), Nat.shiftLeft_eq]

/-- Bit `15 - t` of the window is stream bit `t` from the cursor's byte on. -/
theorem getLsbD_bytePair (b : List Byte) (k : Nat) {t : Nat} (ht : t < 16) :
    (bytePair b k).getLsbD (15 - t) = byteBit b (8 * byteIndex k + t) := by
  rw [bytePair, BitVec.getLsbD_or, BitVec.getLsbD_shiftLeft, BitVec.getLsbD_setWidth, BitVec.getLsbD_setWidth, byteBit]
  rcases Nat.lt_or_ge t 8 with hhigh | hlow
  · rw [show (8 * byteIndex k + t) / 8 = byteIndex k by omega,
      show 7 - (8 * byteIndex k + t) % 8 = 15 - t - 8 by omega,
      BitVec.getLsbD_of_ge (b.getD (byteIndex k + 1) 0) (15 - t) (by omega),
      decide_eq_true (by omega : 15 - t < 16), decide_eq_false (by omega : ¬15 - t < 8),
      decide_eq_true (by omega : 15 - t - 8 < 16)]
    simp
  · rw [show (8 * byteIndex k + t) / 8 = byteIndex k + 1 by omega,
      show 7 - (8 * byteIndex k + t) % 8 = 15 - t by omega, decide_eq_true (by omega : 15 - t < 16),
      decide_eq_true (by omega : 15 - t < 8)]
    simp

/-- Symbol `k` is stream bits `9k` to `9k + 8`, the highest first (R105). -/
theorem getLsbD_symbolAt (b : List Byte) (k : Nat) {j : Nat} (hj : j < 9) :
    (symbolValue (symbolAt b k)).getLsbD (8 - j) = byteBit b (9 * k + j) := by
  have ho := bitOffset_lt k
  have hcursor : 8 * byteIndex k + (bitOffset k + j) = 9 * k + j := by
    rw [byteIndex_eq, bitOffset_eq]
    omega
  rw [symbolValue_symbolAt, BitVec.getLsbD_extractLsb', decide_eq_true (by omega), Bool.true_and, ← hcursor,
    ← getLsbD_bytePair b k (by omega)]
  congr 1
  omega

theorem toNat_symbolAt (b : List Byte) (k : Nat) :
    (symbolValue (symbolAt b k)).toNat =
      ((b.getD (9 * k / 8) 0).toNat * 256 + (b.getD (9 * k / 8 + 1) 0).toNat) / 2 ^ (7 - 9 * k % 8) % 512 := by
  rw [symbolValue_symbolAt, BitVec.extractLsb'_toNat, toNat_bytePair, Nat.shiftRight_eq_div_pow]
  rfl

/-! ### DECODE of an encoding, and ENCODE of what was decoded -/

@[simp] theorem length_decodeStream (b : List Byte) (count : Nat) : (decodeStream b count).length = count := by
  simp [decodeStream]

theorem getD_decodeStream (b : List Byte) {count k : Nat} (hk : k < count) :
    (decodeStream b count).getD k Config.fill = symbolAt b k := by
  rw [List.getD_eq_getElem _ _ (by simpa using hk)]
  simp [decodeStream]

/-- Every symbol of an encoding is read back, with fillers beyond its end (R105, R106). -/
theorem symbolAt_encodeStream (x : List Symbol) (k : Nat) : symbolAt (encodeStream x) k = x.getD k Config.fill :=
  symbol_ext fun j hj => by rw [getLsbD_symbolAt _ _ hj, byteBit_encodeStream, symbolBit_of_symbol _ _ hj]

theorem decodeStream_encodeStream (x : List Symbol) : decodeStream (encodeStream x) x.length = x := by
  refine List.ext_getElem (by simp) fun k hleft hright => ?_
  rw [← List.getD_eq_getElem _ Config.fill hleft, getD_decodeStream _ hright, symbolAt_encodeStream,
    List.getD_eq_getElem _ _ hright]

/-- The stream of the symbols read is the stream of the bytes, as far as they were read. -/
theorem symbolBit_decodeStream (b : List Byte) {count k : Nat} (hk : k < 9 * count) :
    symbolBit (decodeStream b count) k = byteBit b k := by
  have hj : k % 9 < 9 := Nat.mod_lt _ (by decide)
  rw [← Nat.div_add_mod k 9, symbolBit_of_symbol _ _ hj, getD_decodeStream _ (by omega), getLsbD_symbolAt _ _ hj]

/-- Bytes that are whole symbols to the last bit are the encoding of the symbols read from them. -/
theorem encodeStream_decodeStream {b : List Byte} {count : Nat} (h : 8 * b.length = 9 * count) :
    encodeStream (decodeStream b count) = b := by
  have hlength : lenOf count = b.length := by
    rw [lenOf]
    omega
  refine bytes_ext (by simpa using hlength) fun k hk => ?_
  rw [length_encodeStream, length_decodeStream, hlength] at hk
  rw [byteBit_encodeStream, symbolBit_decodeStream _ (by omega)]

/-- Settles O50: a symbol read is nine bits of the stream of bytes (`getLsbD_symbolAt`), which for an encoding are a
symbol's nine bits. -/
theorem decodeStreamRoundTrip : Obligations.DecodeStreamRoundTrip := by
  refine ⟨fun b count _ => ⟨length_decodeStream b count, fun k hk => ?_⟩, decodeStream_encodeStream,
    fun s x hx => ?_⟩
  · rw [getD_decodeStream b hk]
    exact ⟨fun j hj => getLsbD_symbolAt b k (by omega), toNat_symbolAt b k⟩
  · rw [hx.bytes_mem, ← hx.1, decodeStream_encodeStream]

/-- Settles O51: the frame is the encoding followed by zero bytes (`encodeStream_withFillers`) and it is the encoding of
a whole number of groups, so DECODE reads back all its symbols and more fillers are none. -/
theorem paddingLaw : Obligations.PaddingLaw := by
  intro x
  have hlength := length_withFillers x
  have hframe : (encodeStream (withFillers x)).length = 9 * ((x.length + 7) / 8) := by
    rw [length_frame, paddedLen_eq]
  refine ⟨?_, hframe, ?_, ?_⟩
  · rw [encodeStream_withFillers]
    congr 2
    split <;> rename_i haligned
    · rw [(padding_of_aligned haligned).2, Nat.sub_self]
    · obtain ⟨-, -, hzeros⟩ := padding_of_unaligned haligned
      rw [hzeros, padding, phase]
      omega
  · rw [hframe, show 8 * (9 * ((x.length + 7) / 8)) / 9 = (withFillers x).length by omega, decodeStream_encodeStream]
    rfl
  · rw [withFillers_of_aligned (x := withFillers x) (by omega)]

/-! ### DECODE8 -/

/-- The general formula of DECODE8 (R102). -/
theorem getElem_decode8 (b : Vector Byte 9) {k : Nat} (hk : k < 8) :
    (decode8 b)[k] = ⟨lowestBit (b[k] >>> (7 - k)),
      ((b[k] &&& BitVec.ofNat 8 (2 ^ (7 - k) - 1)) <<< (k + 1)) ||| (b[k + 1] >>> (7 - k))⟩ := by
  rcases Nat.lt_or_ge k 7 with hinside | hlast
  · interval_cases k <;> rfl
  · obtain rfl : k = 7 := by omega
    simp [decode8]

theorem toNat_lowestBit (b : Byte) : (lowestBit b).toNat = b.toNat % 2 := by
  simp [lowestBit]

theorem getLsbD_lowestBit (b : Byte) : (lowestBit b).getLsbD 0 = b.getLsbD 0 := by
  simp [lowestBit]

/-- The payload of the general formula: bits below `k + 1` come from the second byte, the others from the first. -/
theorem getLsbD_decode8_payload (a b : Byte) {k i : Nat} (hi : i < 8) :
    (((a &&& BitVec.ofNat 8 (2 ^ (7 - k) - 1)) <<< (k + 1)) ||| (b >>> (7 - k))).getLsbD i =
      if i ≤ k then b.getLsbD (7 - k + i) else a.getLsbD (i - (k + 1)) := by
  rw [BitVec.getLsbD_or, BitVec.getLsbD_shiftLeft, BitVec.getLsbD_and, BitVec.getLsbD_ofNat,
    Nat.testBit_two_pow_sub_one, BitVec.getLsbD_ushiftRight]
  split <;> rename_i hsecond
  · rw [decide_eq_true (by omega : i < k + 1)]
    simp
  · rw [BitVec.getLsbD_of_ge b _ (by omega), decide_eq_true hi, decide_eq_false (by omega : ¬i < k + 1),
      decide_eq_true (by omega : i - (k + 1) < 8), decide_eq_true (by omega : i - (k + 1) < 7 - k)]
    simp

/-- The symbols of DECODE8 are those that DECODE reads from the nine bytes (R102, R105). -/
theorem getElem_decode8_eq_symbolAt (b : Vector Byte 9) {k : Nat} (hk : k < 8) :
    (decode8 b)[k] = symbolAt b.toList k := by
  have hbyte : ∀ i (hi : i < 9), b.toList.getD i 0 = b[i] := fun i hi => by
    rw [List.getD_eq_getElem _ _ (by simpa using hi), Vector.getElem_toList]
  refine symbol_ext fun j hj => ?_
  rw [getLsbD_symbolAt _ _ hj, getElem_decode8 b hk, byteBit]
  rcases Nat.eq_zero_or_pos j with rfl | hpayload
  · rw [getLsbD_symbolValue_control, getLsbD_lowestBit, BitVec.getLsbD_ushiftRight,
      show (9 * k + 0) / 8 = k by omega, show (9 * k + 0) % 8 = k by omega, hbyte k (by omega), Nat.add_zero]
  · rw [getLsbD_symbolValue_payload _ _ (by omega), getLsbD_decode8_payload _ _ (by omega)]
    split
    · rw [show (9 * k + j) / 8 = k + 1 by omega, hbyte (k + 1) (by omega)]
      congr 1
      omega
    · rw [show (9 * k + j) / 8 = k by omega, hbyte k (by omega)]
      congr 1
      omega

theorem toList_decode8 (b : Vector Byte 9) : (decode8 b).toList = decodeStream b.toList 8 := by
  refine List.ext_getElem (by simp) fun k hleft hright => ?_
  rw [Vector.getElem_toList, getElem_decode8_eq_symbolAt b (by simpa using hright)]
  simp [decodeStream]

theorem decode8_encode8 (g : Vector Symbol 8) : decode8 (encode8 g) = g := by
  have hread := decodeStream_encodeStream g.toList
  rw [Vector.length_toList] at hread
  rw [← Vector.toList_inj, toList_decode8, ← encodeStream_toList, hread]

theorem encode8_decode8 (b : Vector Byte 9) : encode8 (decode8 b) = b := by
  rw [← Vector.toList_inj, ← encodeStream_toList, toList_decode8, encodeStream_decodeStream (by simp)]

/-- Settles O48: DECODE8 reads the symbols that DECODE reads from one group (`toList_decode8`), and ENCODE8 is ENCODE of
one group, so their two inverse laws are those of DECODE and ENCODE. -/
theorem groupDecoderInvertsEncoder : Obligations.GroupDecoderInvertsEncoder := by
  refine ⟨decode8_encode8, encode8_decode8, fun b k hk => ?_⟩
  rw [getElem_decode8 b hk]
  refine ⟨?_, rfl⟩
  rw [toNat_lowestBit, BitVec.toNat_ushiftRight, Nat.shiftRight_eq_div_pow]

/-- Settles O47: ENCODE8's bytes are those of the group's packed stream (`getElem_encode8`), and DECODE8 is its inverse
from both sides. -/
theorem groupEncoderIsABijection : Obligations.GroupEncoderIsABijection := by
  refine ⟨fun g j t hj ht => ?_, Function.LeftInverse.injective decode8_encode8,
    Function.RightInverse.surjective encode8_decode8⟩
  rw [getElem_encode8 g hj, getLsbD_packedByte _ _ _ (by omega), show 7 - (7 - t) = t by omega]

end Sys2Proof.Machine

/-! ## The life of a transaction (spec/43_lifecycle.md R115 to R122) -/

namespace Sys2Proof.Machine

/-! ### RESET -/

/-- RESET asks nothing of the state: it empties the block and returns Ok (R118). -/
theorem exec_reset (s : State) :
    exec .reset s = .next { s with
      n := 0, mem := [], ovf := false, trace := s.trace ++ [.returned .reset ⟨.ok, 0, none⟩] } := rfl

/-- Settles O11: RESET is one equation, the same in every state. -/
theorem resetEmptiesBlock : Obligations.ResetEmptiesBlock := exec_reset

/-! ### Every step completes -/

/-- What PACK and FLUSH find when they look at the flag and at their capacity test (R74, R94). -/
theorem refused_or_admitted : ∀ ovf fits : Bool, (ovf = true ∨ fits = false) ∨ ovf = false ∧ fits = true := by
  decide

/-- PACK completes from every well-formed state: it is refused, or its symbol is appended (R73, R74). -/
theorem exec_pack_completes (c : Bit) (d : Byte) {s : State} (hwf : WF s) : ∃ t, exec (.pack c d) s = .next t := by
  obtain ⟨-, x, hx⟩ := (wf_iff s).1 hwf
  rcases refused_or_admitted s.ovf (packFits s) with hrefused | ⟨hovf, hfit⟩
  · exact ⟨_, exec_pack_overflow c d hrefused⟩
  · obtain ⟨t, hexec, -⟩ := exec_pack_fits c d hx hovf ((packFits_eq_true s).1 hfit)
    exact ⟨t, hexec⟩

/-- FLUSH completes from every well-formed state whose transport answers: it is refused, has nothing to send, or
hands its frame over and is answered (R88, R89, R91). -/
theorem exec_flush_completes {s : State} (hwf : WF s) (hanswers : TransportAnswers s) :
    ∃ t, exec .flush s = .next t := by
  obtain ⟨-, x, hx⟩ := (wf_iff s).1 hwf
  rcases refused_or_admitted s.ovf (flushFits s) with hrefused | ⟨hovf, hfit⟩
  · exact ⟨_, exec_flush_overflow hrefused⟩
  · rcases Nat.eq_zero_or_pos s.n with hn | hn
    · exact ⟨_, exec_flush_empty hn hovf⟩
    · exact ⟨_, exec_flush_of_holds hx hovf hn (paddedLen_eq s.n ▸ (flushFits_eq_true s).1 hfit) hanswers⟩

theorem exec_completes (i : Instr) {s : State} (hwf : WF s) (hanswers : TransportAnswers s) :
    ∃ t, exec i s = .next t := by
  cases i with
  | pack c d => exact exec_pack_completes c d hwf
  | flush => exact exec_flush_completes hwf hanswers
  | reset => exact ⟨_, exec_reset s⟩
  | reserved => exact ⟨_, exec_reserved s⟩

/-- Settles O44: a step that is no operation always completes, and every operation does (`exec_completes`), since
taking the action off the host's list touches neither the block nor the transport. -/
theorem wellFormedStepCompletes : Obligations.WellFormedStepCompletes := by
  intro s hwf hanswers
  rcases step_cases s with ⟨-, hidle⟩ | ⟨rest, -, hreset⟩ | ⟨w, rest, -, hrun⟩
  · exact ⟨_, hidle⟩
  · exact ⟨_, hreset⟩
  · rw [hrun]
    exact exec_completes (decode w) (s := takeAction s) hwf hanswers

/-! ### The states of the state machine -/

theorem Initial.modeOf_eq {s : State} (h : Initial s) : modeOf s = .empty := by
  obtain ⟨hn, -, hovf⟩ := h
  exact (modeOf_eq_empty s).2 ⟨hovf, by rw [hn]⟩

/-! ### The transitions (R116) -/

/-- A PACK that fits returns Ok and hands nothing over. Before the last place of a group it ends in Accumulating, one
phase further; at the last place it completes the group and ends in Empty. -/
theorem pack_moves_phase {s : State} (hwf : WF s) (hovf : s.ovf = false) (c : Bit) (d : Byte)
    (hfit : byteIndex s.n + 2 ≤ s.cap) :
    ∃ t, Returns (.pack c d) s t ⟨.ok, 0, none⟩ ∧ t.sent = s.sent ∧
      (phase s.n ≤ 6 → modeOf t = .accumulating ∧ phase t.n = phase s.n + 1) ∧
      (phase s.n = 7 → modeOf t = .empty) := by
  obtain ⟨-, x, hx⟩ := (wf_iff s).1 hwf
  obtain ⟨t, hexec, hframe, hsnoc⟩ := exec_pack_fits c d hx hovf hfit
  have hcount := hx.count_snoc hsnoc
  have htovf : t.ovf = false := by rw [hframe, hovf]
  refine ⟨t, ⟨hexec, by rw [hframe]⟩, by rw [hframe], fun hinside => ?_, fun hlast => ?_⟩
  · rw [modeOf_eq_accumulating, hcount]
    simp only [phase] at hinside ⊢
    exact ⟨⟨htovf, by omega⟩, by omega⟩
  · rw [modeOf_eq_empty, hcount]
    rw [phase] at hlast
    exact ⟨htovf, by omega⟩

/-- An operation that raises BufferOverflow ends in Faulted, and the transaction and the frames are kept (R134). -/
theorem overflow_returns_faulted {i : Instr} {s : State}
    (hraise : exec i s = .next (raiseError i .bufferOverflow s)) :
    ∃ t, Returns i s t overflowResponse ∧ modeOf t = .faulted ∧ t.n = s.n ∧ t.mem = s.mem ∧ t.sent = s.sent :=
  ⟨_, ⟨hraise, raiseError_trace ..⟩, (modeOf_eq_faulted _).2 rfl, rfl, rfl, rfl⟩

/-- A FLUSH that has something to send and fits ends in Empty, with one frame handed over and answered. -/
theorem flush_hands_over {s : State} (hwf : WF s) (hovf : s.ovf = false) (hn : 0 < s.n)
    (hfit : paddedLen s.n ≤ s.cap) (hanswers : TransportAnswers s) :
    ∃ t frame a, Returns .flush s t (flushResponse (paddedLen s.n) a) ∧ modeOf t = .empty ∧ t.n = 0 ∧
      t.sent = s.sent ++ [(frame, a)] := by
  obtain ⟨-, x, hx⟩ := (wf_iff s).1 hwf
  have hlength : (encodeStream (withFillers x)).length = paddedLen s.n := by rw [length_frame, hx.1]
  have hexec := exec_flush_of_holds hx hovf hn (paddedLen_eq s.n ▸ hfit) hanswers
  refine ⟨_, encodeStream (withFillers x), _, ⟨hexec, ?_⟩, (initial_flushed _ hovf).modeOf_eq, rfl, flushed_sent _ _⟩
  rw [flushed_trace, hlength]

/-- On a group boundary the buffer is sent as it stands, and it always fits (R90). -/
theorem WF.aligned_frame {s : State} (hwf : WF s) (haligned : s.n % 8 = 0) :
    paddedLen s.n = s.mem.length ∧ paddedLen s.n ≤ s.cap := by
  obtain ⟨-, hlength, hcap, -⟩ := hwf
  rw [hlength, (padding_of_aligned haligned).2]
  exact ⟨rfl, hcap⟩

/-- Settles O36: each state of the state machine fixes the flag and the phase up to alignment, and with those each
row is one of the transitions above. -/
theorem transitionTable : Obligations.TransitionTable := by
  intro s hwf
  refine ⟨fun c d hempty hfit => ?_, fun c d hacc hfit hphase => ?_, fun c d hacc hfit hphase => ?_,
    fun c d _ hfull => ?_, fun hempty hn => ?_, fun hempty hn hanswers => ?_, fun hacc hfit hanswers => ?_,
    fun _ hfull => ?_, fun c d hfaulted => ?_, fun hfaulted => ?_, ?_, exec_reserved s⟩
  · obtain ⟨hovf, haligned⟩ := (modeOf_eq_empty s).1 hempty
    have hphase : phase s.n = 0 := haligned
    obtain ⟨t, hreturns, hsent, hinside, -⟩ := pack_moves_phase hwf hovf c d hfit
    obtain ⟨hmode, hnext⟩ := hinside (by omega)
    exact ⟨t, hreturns, hmode, hphase, by rw [hnext, hphase], hsent⟩
  · obtain ⟨hovf, -⟩ := (modeOf_eq_accumulating s).1 hacc
    obtain ⟨t, hreturns, hsent, hinside, -⟩ := pack_moves_phase hwf hovf c d hfit
    obtain ⟨hmode, hnext⟩ := hinside hphase
    exact ⟨t, hreturns, hmode, hnext, hsent⟩
  · obtain ⟨hovf, -⟩ := (modeOf_eq_accumulating s).1 hacc
    obtain ⟨t, hreturns, hsent, -, hlast⟩ := pack_moves_phase hwf hovf c d hfit
    exact ⟨t, hreturns, hlast hphase, hsent⟩
  · exact overflow_returns_faulted (exec_pack_overflow c d (.inr ((packFits_eq_false s).2 hfull)))
  · exact exec_flush_empty hn ((modeOf_eq_empty s).1 hempty).1
  · obtain ⟨hovf, haligned⟩ := (modeOf_eq_empty s).1 hempty
    obtain ⟨hlength, hfit⟩ := hwf.aligned_frame haligned
    rw [← hlength]
    exact flush_hands_over hwf hovf hn hfit hanswers
  · obtain ⟨hovf, hunaligned⟩ := (modeOf_eq_accumulating s).1 hacc
    exact flush_hands_over hwf hovf (by omega) hfit hanswers
  · exact overflow_returns_faulted (exec_flush_overflow (.inr ((flushFits_eq_false s).2 hfull)))
  · exact (overflowedBlockRefusesPackAndFlush s ((modeOf_eq_faulted s).1 hfaulted)).1 c d
  · exact (overflowedBlockRefusesPackAndFlush s ((modeOf_eq_faulted s).1 hfaulted)).2
  · exact ⟨_, ⟨exec_reset s, rfl⟩, Initial.modeOf_eq ⟨rfl, rfl, rfl⟩, rfl, rfl, rfl⟩

end Sys2Proof.Machine

/-! ## The errors: when each is raised, what it leaves, and their order (spec/60_exceptions.md R130 to R137) -/

namespace Sys2Proof.Machine

/-! ### The response of an operation -/

/-- The record names the response: an operation returns one only. -/
theorem Returns.response_eq {i : Instr} {s t : State} {r r' : Response} (h : Returns i s t r)
    (htrace : t.trace = s.trace ++ [.returned i r']) : r = r' := by
  simpa [h.2] using htrace

theorem Returns.ending {i : Instr} {s t : State} {r : Response} (h : Returns i s t r) :
    ∃ new, Ending s i r new ∧ t.sent = s.sent ++ new := by
  obtain ⟨r', new, hend, htrace, hsent⟩ := exec_ending h.1
  obtain rfl := h.response_eq htrace
  exact ⟨new, hend, hsent⟩

/-- The reserved code, and no other operation, is answered IllegalCommand (R133). -/
theorem Ending.illegalCommand_iff {s : State} {i : Instr} {r : Response} {new : List (List Byte × Config.Answer)}
    (h : Ending s i r new) : r.status = .illegalCommand ↔ i = .reserved := by
  cases h with
  | packOverflow | packed | flushOverflow | flushEmpty | reset => exact ⟨nofun, nofun⟩
  | handedOver frame a => cases a <;> exact ⟨nofun, nofun⟩
  | reserved => exact ⟨fun _ => rfl, fun _ => rfl⟩

/-- TransportError carries the error value that a FLUSH's frame met, and nothing else raises it (R132). -/
theorem Ending.transportError_iff {s : State} {i : Instr} {r : Response} {new : List (List Byte × Config.Answer)}
    (h : Ending s i r new) (e : Config.TErr) :
    (r.status = .transportError ∧ r.terr = some e) ↔ (i = .flush ∧ ∃ frame, new = [(frame, .err e)]) := by
  cases h with
  | packOverflow | packed | flushOverflow | flushEmpty | reset | reserved =>
    exact ⟨nofun, fun ⟨_, _, hnew⟩ => nomatch hnew⟩
  | handedOver frame a => cases a <;> simp [flushResponse]

/-! ### BufferOverflow (R131) -/

/-- The condition under which an operation is refused for want of room: the flag is set already, or the
operation's own capacity test fails (R131). -/
def Overflows (s : State) : Instr → Prop
  | .pack _ _ => s.ovf = true ∨ packFits s = false
  | .flush => s.ovf = true ∨ flushFits s = false
  | .reset => False
  | .reserved => False

theorem overflows_pack_iff (s : State) (c : Bit) (d : Byte) :
    Overflows s (.pack c d) ↔ s.ovf = true ∨ s.cap < 9 * s.n / 8 + 2 :=
  or_congr_right (packFits_eq_false s)

theorem overflows_flush_iff (s : State) :
    Overflows s .flush ↔ s.ovf = true ∨ s.cap < 9 * ((s.n + 7) / 8) :=
  or_congr_right ((flushFits_eq_false s).trans (by rw [paddedLen_eq]))

theorem overflows_iff (s : State) (i : Instr) :
    Overflows s i ↔
      (∃ c d, i = .pack c d ∧ (s.ovf = true ∨ s.cap < 9 * s.n / 8 + 2)) ∨
      (i = .flush ∧ (s.ovf = true ∨ s.cap < 9 * ((s.n + 7) / 8))) := by
  cases i with
  | pack c d => simp [overflows_pack_iff]
  | flush => simp [overflows_flush_iff]
  | reset | reserved => simp [Overflows]

theorem exec_of_overflows {s : State} {i : Instr} (h : Overflows s i) :
    exec i s = .next (raiseError i .bufferOverflow s) := by
  cases i with
  | pack c d => exact exec_pack_overflow c d h
  | flush => exact exec_flush_overflow h
  | reset | reserved => exact h.elim

/-- A PACK that is not refused returns Ok (R72). -/
theorem Returns.pack_admitted {s t : State} {c : Bit} {d : Byte} {r : Response} (h : Returns (.pack c d) s t r)
    (hadmitted : ¬ Overflows s (.pack c d)) : r = okResponse 0 := by
  rcases execPack_cases h.1 with ⟨hrefused, -⟩ | ⟨-, -, u, happend, rfl⟩
  · exact absurd hrefused hadmitted
  · obtain ⟨⟨m, rfl⟩, -⟩ := appendSymbol_ok happend
    exact h.response_eq (respond_trace ..)

/-- A FLUSH that is not refused has nothing to send, or hands its frame over and returns what the transport
answered (R89, R91 to R93). -/
theorem Returns.flush_admitted {s t : State} {r : Response} (h : Returns .flush s t r)
    (hadmitted : ¬ Overflows s .flush) :
    r = okResponse 0 ∨
      ∃ frame, formFrame s = .ok frame ∧ t = flushed s frame ∧
        r = flushResponse frame.length (nextAnswer s frame) := by
  rcases execFlush_cases h.1 with ⟨hrefused, -⟩ | ⟨-, -, -, rfl⟩ | ⟨-, -, -, frame, hframe, -, hsend⟩
  · exact absurd hrefused hadmitted
  · exact .inl (h.response_eq (respond_trace ..))
  · rw [handOff_of_transportAnswers _ (transportAnswers_of_handOff hsend)] at hsend
    obtain rfl := Except.ok.inj hsend
    exact .inr ⟨frame, hframe, rfl, h.response_eq (flushed_trace s frame)⟩

theorem flushResponse_status_ne_bufferOverflow (L : Nat) (a : Config.Answer) :
    (flushResponse L a).status ≠ .bufferOverflow := by
  cases a <;> exact nofun

/-- BufferOverflow is returned exactly by the operations that are refused (R131). -/
theorem Returns.bufferOverflow_iff {s t : State} {i : Instr} {r : Response} (h : Returns i s t r) :
    r.status = .bufferOverflow ↔ Overflows s i := by
  constructor
  · intro hstatus
    by_contra hadmitted
    obtain ⟨new, hend, -⟩ := h.ending
    cases i with
    | pack c d => simp [h.pack_admitted hadmitted, okResponse] at hstatus
    | flush =>
      rcases h.flush_admitted hadmitted with rfl | ⟨frame, -, -, rfl⟩
      · cases hstatus
      · exact flushResponse_status_ne_bufferOverflow _ _ hstatus
    | reset => simp [hend.reset_status] at hstatus
    | reserved => simp [hend.reserved_status] at hstatus
  · intro hrefused
    obtain rfl := Host.Outcome.next.inj ((exec_of_overflows hrefused).symm.trans h.1)
    rw [h.response_eq (raiseError_trace ..)]
    rfl

/-- Settles O31: the refusals are those of `Overflows`, and the other two errors are read off the way the operation
ended. -/
theorem errorsAreRaisedExactly : Obligations.ErrorsAreRaisedExactly := by
  intro s t i hexec
  obtain ⟨r, new, hend, htrace, hsent⟩ := exec_ending hexec
  have hreturns : Returns i s t r := ⟨hexec, htrace⟩
  refine ⟨r, htrace, hreturns.bufferOverflow_iff.trans (overflows_iff s i), hend.illegalCommand_iff, fun e => ?_⟩
  simpa [hsent] using hend.transportError_iff e

/-! ### What an error leaves behind (R134) -/

/-- The operation that returns TransportError is a FLUSH that was not refused; it formed a frame, handed it over and
was answered with the error value that it returns. -/
theorem Returns.transportError_flushed {s t : State} {i : Instr} {r : Response} (h : Returns i s t r)
    (hstatus : r.status = .transportError) :
    ¬ Overflows s .flush ∧ ∃ frame e, formFrame s = .ok frame ∧ t = flushed s frame ∧
      nextAnswer s frame = .err e ∧ r.terr = some e := by
  obtain ⟨new, hend, -⟩ := h.ending
  rcases hend.terr_cases with ⟨-, hother⟩ | ⟨-, e, hterr, -, -⟩
  · exact absurd hstatus hother
  · obtain ⟨rfl, -⟩ := (hend.transportError_iff e).1 ⟨hstatus, hterr⟩
    have hadmitted : ¬ Overflows s .flush := fun hrefused => by simp [h.bufferOverflow_iff.2 hrefused] at hstatus
    rcases h.flush_admitted hadmitted with rfl | ⟨frame, hframe, hflushed, rfl⟩
    · cases hstatus
    · refine ⟨hadmitted, frame, e, hframe, hflushed, ?_, hterr⟩
      cases hanswer : nextAnswer s frame with
      | ok => simp [hanswer, flushResponse] at hterr
      | err e' => simpa [hanswer, flushResponse] using hterr

/-- Settles O32: each status tells which way the operation ended, and that fixes the state after it. -/
theorem errorLeavesState : Obligations.ErrorLeavesState := by
  intro s t i r h
  refine ⟨fun hstatus => ?_, fun hstatus => ?_, fun hstatus => ?_⟩
  · have hraise := exec_of_overflows (h.bufferOverflow_iff.1 hstatus)
    obtain rfl := Host.Outcome.next.inj (hraise.symm.trans h.1)
    rfl
  · obtain ⟨hadmitted, frame, e, hframe, rfl, hanswer, hterr⟩ := h.transportError_flushed hstatus
    obtain ⟨hovf, hfit⟩ : s.ovf = false ∧ paddedLen s.n ≤ s.cap := by simpa [Overflows] using hadmitted
    refine ⟨rfl, rfl, rfl, hovf, frame, e, hterr, by rw [flushed_sent, hanswer], formFrame_length hframe,
      fun x hx => ?_⟩
    exact Except.ok.inj (hframe.symm.trans (formFrame_of_holds hx hfit))
  · obtain ⟨new, hend, -⟩ := h.ending
    obtain rfl := hend.illegalCommand_iff.1 hstatus
    obtain rfl := Host.Outcome.next.inj ((exec_reserved s).symm.trans h.1)
    rfl

/-! ### The order of the conditions (R136) -/

theorem priorityResponse_of_overflows {s : State} {i : Instr} (h : Overflows s i) (frame : List Byte) :
    priorityResponse i s frame = overflowResponse := by
  cases i with
  | pack c d =>
    rcases (overflows_pack_iff s c d).1 h with hovf | hfull
    · simp [priorityResponse, hovf]
    · simp [priorityResponse, hfull]
  | flush =>
    rcases (overflows_flush_iff s).1 h with hovf | hfull
    · simp [priorityResponse, hovf]
    · simp [priorityResponse, hfull]
  | reset | reserved => exact h.elim

theorem priorityResponse_pack_admitted {s : State} {c : Bit} {d : Byte} (h : ¬ Overflows s (.pack c d))
    (frame : List Byte) : priorityResponse (.pack c d) s frame = okResponse 0 := by
  rw [overflows_pack_iff, not_or] at h
  obtain ⟨hovf, hfit⟩ := h
  rw [priorityResponse, if_neg hovf, if_neg hfit, okResponse]

theorem priorityResponse_flush_admitted {s : State} (h : ¬ Overflows s .flush) (frame : List Byte) :
    priorityResponse .flush s frame =
      if s.n = 0 then okResponse 0 else flushResponse (paddedLen s.n) (nextAnswer s frame) := by
  rw [overflows_flush_iff, not_or] at h
  obtain ⟨hovf, hfit⟩ := h
  rw [priorityResponse, if_neg hovf, if_neg hfit, okResponse, paddedLen_eq]

/-- The way an operation ends on a buffer that holds `x` gives it the response of the order. -/
theorem OpEffect.trace_eq_priorityResponse {s t : State} {x : List Symbol} {i : Instr} (hx : Holds s x)
    (h : OpEffect s x i t) :
    t.trace = s.trace ++ [.returned i (priorityResponse i s (encodeStream (withFillers x)))] := by
  cases h with
  | packOverflow c d hrefused =>
    rw [priorityResponse_of_overflows (i := .pack c d) hrefused]
    rfl
  | packed c d hovf hfit =>
    rw [priorityResponse_pack_admitted (by simp [Overflows, hovf, hfit])]
    rfl
  | flushOverflow hrefused =>
    rw [priorityResponse_of_overflows (i := .flush) hrefused]
    rfl
  | flushEmpty hovf hn =>
    rw [priorityResponse_flush_admitted (by simp [Overflows, hovf, (paddedLen_eq_zero _).2 hn, flushFits]), if_pos hn]
    rfl
  | flushed hovf hfit hn =>
    rw [priorityResponse_flush_admitted (by simp [Overflows, hovf, hfit]), if_neg hn, flushed_trace, length_frame,
      hx.1]
  | reset | reserved => rfl

/-- Settles O34: the operation completes (`exec_completes`), and the way it ends gives the response. -/
theorem everyOperationCompletesByPriority : Obligations.EveryOperationCompletesByPriority := by
  intro s x i hwf hx hanswers
  obtain ⟨t, hexec⟩ := exec_completes i hwf hanswers
  exact ⟨t, hexec, (exec_effect hx hexec).trace_eq_priorityResponse hx⟩

end Sys2Proof.Machine

/-! ## Capacities: whole groups never overflow, others can strand a transaction
(spec/70_reset_and_hazards.md R153, R158) -/

namespace Sys2Proof.Machine

/-! ### A capacity of whole groups (R153) -/

/-- Operations that complete, and then more, are the second run from where the first ends. -/
theorem execAll_append {is : List Instr} (js : List Instr) {s t : State} (h : execAll is s = .next t) :
    execAll (is ++ js) s = execAll js t := by
  induction is generalizing s with
  | nil =>
    cases h
    rfl
  | cons i is ih =>
    obtain ⟨u, hfirst, hrest⟩ := execAll_cons_eq_next.1 h
    rw [List.cons_append, execAll, hfirst]
    exact ih hrest

/-- A FLUSH whose padded transaction fits ends in the initial state without BufferOverflow, and has sent the
transaction with its fillers, or nothing where there is none (R89, R91 to R93). -/
theorem exec_flush_fits {s : State} {x : List Symbol} (hx : Holds s x) (hovf : s.ovf = false)
    (hfit : 9 * ((s.n + 7) / 8) ≤ s.cap) (hanswers : TransportAnswers s) :
    ∃ t r, Returns .flush s t r ∧ r.status ≠ .bufferOverflow ∧ Initial t ∧
      t.sent = s.sent ++ (if x = [] then [] else
        [(encodeStream (withFillers x), nextAnswer s (encodeStream (withFillers x)))]) := by
  by_cases hempty : x = []
  · subst hempty
    obtain ⟨hn, hmem⟩ := hx
    refine ⟨_, _, ⟨exec_flush_empty hn.symm hovf, rfl⟩, nofun, ⟨hn.symm, ?_, hovf⟩, by simp [withResponse]⟩
    rw [withResponse, hmem, encodeStream_nil]
    rfl
  · have hn : 0 < s.n := hx.1 ▸ List.length_pos_iff.2 hempty
    refine ⟨_, _, ⟨exec_flush_of_holds hx hovf hn hfit hanswers, flushed_trace ..⟩,
      flushResponse_status_ne_bufferOverflow _ _, initial_flushed _ hovf, ?_⟩
    rw [if_neg hempty, flushed_sent]

/-- Settles O29: at most `8q` symbols fit `9q` bytes unpadded and padded, so every PACK returns Ok
(`execAll_packs_eq`) and the FLUSH is not refused (`exec_flush_fits`). -/
theorem multipleOfNineNeverOverflows : Obligations.MultipleOfNineNeverOverflows := by
  rintro s q x ⟨hn, hmem, hovf⟩ hcap hlength hanswers
  have hpacks := execAll_packs_eq x (holds_nil hn hmem) hovf (by rw [nmax]; omega)
  have hholds : Holds (s.afterPacks [] x) x := ⟨(List.length_append.trans (Nat.zero_add _)).symm, rfl⟩
  have hfit : 9 * (((s.afterPacks [] x).n + 7) / 8) ≤ (s.afterPacks [] x).cap := by
    show _ ≤ s.cap
    rw [← hholds.1]
    omega
  obtain ⟨t, r, ⟨hflush, htrace⟩, hstatus, hinitial, hsent⟩ := exec_flush_fits hholds hovf hfit hanswers
  refine ⟨t, ?_, hinitial, fun i r' hmem => ?_, hsent⟩
  · rw [execAll_append _ hpacks, execAll_cons_eq_next]
    exact ⟨t, hflush, rfl⟩
  · rw [htrace, State.afterPacks, List.append_assoc, List.drop_left, List.mem_append, List.mem_map,
      List.mem_singleton] at hmem
    rcases hmem with ⟨z, -, hpacked⟩ | hflushed
    · cases hpacked
      nofun
    · cases hflushed
      exact hstatus

/-! ### A transaction that no FLUSH can send (R158) -/

theorem paddedLen_mono {n k : Nat} (h : n ≤ k) : paddedLen n ≤ paddedLen k := by
  rw [paddedLen_eq, paddedLen_eq]
  omega

/-- A well-formed state whose padded transaction does not fit, so that FLUSH refuses it (R88, R158). -/
def Stranded (s : State) : Prop := WF s ∧ s.cap < paddedLen s.n

/-- More symbols leave a stranded transaction stranded. -/
theorem Stranded.of_count_le {s t : State} (h : Stranded s) (hwf : WF t) (hcap : t.cap = s.cap) (hn : s.n ≤ t.n) :
    Stranded t := by
  refine ⟨hwf, ?_⟩
  rw [hcap]
  exact Nat.lt_of_lt_of_le h.2 (paddedLen_mono hn)

/-- From a stranded transaction every operation but RESET completes whatever the transport does, since none reaches
it: PACK only adds to the count, FLUSH is refused, and the transaction stays stranded. -/
theorem Stranded.exec_ne_reset {s : State} (h : Stranded s) {i : Instr} (hi : i ≠ .reset) :
    ∃ t, exec i s = .next t ∧ Stranded t ∧ t.sent = s.sent ∧ s.n ≤ t.n := by
  obtain ⟨hwf, hfull⟩ := h
  suffices hexec : ∃ t, exec i s = .next t ∧ t.sent = s.sent ∧ s.n ≤ t.n by
    obtain ⟨t, hnext, hsent, hn⟩ := hexec
    exact ⟨t, hnext, Stranded.of_count_le ⟨hwf, hfull⟩ (exec_keeps_wf hwf hnext) (exec_cap hnext) hn, hsent, hn⟩
  cases i with
  | pack c d =>
    obtain ⟨t, hnext⟩ := exec_pack_completes c d hwf
    obtain ⟨-, x, hx⟩ := (wf_iff s).1 hwf
    refine ⟨t, hnext, ?_⟩
    cases exec_effect hx hnext with
    | packOverflow => exact ⟨raiseError_sent .., (raiseError_n ..).ge⟩
    | packed => exact ⟨rfl, by simp [hx.1]⟩
  | flush =>
    exact ⟨_, exec_flush_overflow (.inr ((flushFits_eq_false s).2 hfull)), raiseError_sent .., (raiseError_n ..).ge⟩
  | reset => exact absurd rfl hi
  | reserved => exact ⟨_, exec_reserved s, rfl, Nat.le_refl _⟩

/-- A stranded transaction is never sent and never given up without RESET, by induction on the operations. -/
theorem Stranded.execAll_without_reset {s : State} (h : Stranded s) {is : List Instr} (his : .reset ∉ is) :
    ∃ t, execAll is s = .next t ∧ t.sent = s.sent ∧ s.n ≤ t.n := by
  induction is generalizing s with
  | nil => exact ⟨s, rfl, rfl, Nat.le_refl _⟩
  | cons i is ih =>
    obtain ⟨hi, hrest⟩ := not_or.1 (mt List.mem_cons.2 his)
    obtain ⟨u, hfirst, hstranded, husent, hun⟩ := h.exec_ne_reset (Ne.symm hi)
    obtain ⟨t, hrun, htsent, htn⟩ := ih hstranded hrest
    exact ⟨t, execAll_cons_eq_next.2 ⟨u, hfirst, hrun⟩, htsent.trans husent, hun.trans htn⟩

/-- The counts above `8m` that fit `9m + r` bytes unpadded begin one more group, which does not fit (R158). -/
theorem count_above_whole_groups {m r n : Nat} (hr : r ≤ 8) (habove : 8 * m < n) (hmax : n ≤ nmax (9 * m + r)) :
    lenOf n ≤ 9 * m + r ∧ paddedLen n = 9 * (m + 1) ∧ 9 * m + r < paddedLen n := by
  rw [nmax] at hmax
  rw [lenOf, paddedLen_eq]
  omega

/-- Such counts exist when a first symbol of the next group, two bytes, fits (R158). -/
theorem exists_count_above_iff {m r : Nat} : (∃ n, 8 * m < n ∧ n ≤ nmax (9 * m + r)) ↔ 2 ≤ r := by
  rw [nmax]
  constructor
  · rintro ⟨n, habove, hmax⟩
    omega
  · intro hr
    exact ⟨8 * m + 1, by omega, by omega⟩

/-- Settles O30: the counts above `8m` are those of stranded transactions. -/
theorem oddCapacityHazard : Obligations.OddCapacityHazard := by
  intro m r _ hr
  refine ⟨fun n => count_above_whole_groups hr, exists_count_above_iff, fun s is hwf hcap habove his => ?_⟩
  have ⟨hmax, _⟩ := hwf
  obtain ⟨-, -, hfull⟩ := count_above_whole_groups hr habove (hcap ▸ hmax)
  obtain ⟨t, hrun, hsent, hn⟩ := Stranded.execAll_without_reset ⟨hwf, hcap ▸ hfull⟩ his
  exact ⟨t, hrun, hsent, habove.trans_le hn⟩

end Sys2Proof.Machine

/-! ## The host's port and the silent transport (spec/00_scope.md R8, spec/30_encoding.md R63,
spec/93_implementation_defined.md U3) -/

namespace Sys2Proof.Machine

open Sys2Proof.Laws

/-! ### A transport that never answers (U3, R143) -/

/-- A FLUSH of a non-empty transaction that fits is the hand-off of its frame, whatever the transport does
(R86). -/
theorem exec_flush_eq_handOff {s : State} {x : List Symbol} (hx : Holds s x) (hovf : s.ovf = false) (hn : 0 < s.n)
    (hfit : paddedLen s.n ≤ s.cap) : exec .flush s = settle (handOff (encodeStream (withFillers x)) s) := by
  have hnonzero : paddedLen s.n ≠ 0 := mt (paddedLen_eq_zero _).1 (Nat.ne_of_gt hn)
  show execFlush s = _
  rw [execFlush, hovf, if_neg Bool.false_ne_true, if_pos ((flushFits_eq_true s).2 hfit), if_neg hnonzero,
    formFrame_of_holds hx hfit, Except.bind]

/-- Settles O28: the frame is formed, so FLUSH is its hand-off (`exec_flush_eq_handOff`), and there a silent
transport leaves it stuck (`handOff_of_silent`). -/
theorem silentTransportHangsFlush : Obligations.SilentTransportHangsFlush := by
  intro s hwf hovf hn hfit hsilent
  obtain ⟨-, x, hx⟩ := (wf_iff s).1 hwf
  rw [← paddedLen_eq] at hfit
  rw [exec_flush_eq_handOff hx hovf hn hfit, handOff_of_silent _ hsilent, settle]

/-! ### Numbers presented at the port (R63) -/

theorem wellFormedWord_eq_false {w : Nat} : wellFormedWord w = false ↔ 2 ^ 11 ≤ w :=
  decide_eq_false_iff_not.trans Nat.not_lt

theorem decodeTableWord_of_wide {nbits w : Nat} (h : 2 ^ 11 ≤ w % 2 ^ nbits) : decodeTableWord nbits w = none := by
  have hreject : decodeNumber (w % 2 ^ nbits) = .error .widerThanCommandWord := by
    rw [decodeNumber, wellFormedWord_eq_false.2 h, if_neg Bool.false_ne_true]
  rw [decodeTableWord, hreject]

theorem withFetchWord_of_wide {nbits w : Nat} (s : State) (h : 2 ^ 11 ≤ w % 2 ^ nbits) :
    s.withFetchWord nbits w = s := by
  rw [State.withFetchWord, issueNumber, wellFormedWord_eq_false.2 h, if_neg Bool.false_ne_true]

/-- A command word's number, read in at least 11 bits, issues that word. -/
theorem withFetchWord_toNat {nbits : Nat} (hbits : 11 ≤ nbits) (w : CommandWord) (s : State) :
    s.withFetchWord nbits w.toNat = issue w s := by
  have hfits : w.toNat < 2 ^ nbits := w.isLt.trans_le (Nat.pow_le_pow_right (by decide) hbits)
  have hword : wellFormedWord w.toNat = true := decide_eq_true w.isLt
  rw [State.withFetchWord, issueNumber, Nat.mod_eq_of_lt hfits, if_pos hword, BitVec.ofNat_toNat,
    BitVec.setWidth_eq]

/-- Settles O5: a number of 12 bits or more is no command word, for the decoder and for the port. -/
theorem widerNumberIsNoCommand : Obligations.WiderNumberIsNoCommand :=
  fun _ _ s hwide => ⟨decodeTableWord_of_wide hwide, withFetchWord_of_wide s hwide⟩

/-! ### The step by the host's next action (R8, R42, R150) -/

/-- Settles O6: a step whose action is a command word is `step_of_command`. -/
theorem stepRunsDecodedCommand : Obligations.StepRunsDecodedCommand := fun _ _ _ => step_of_command

/-- Settles O7: the canonical word is issued as it is (`withFetchWord_toNat`), the step decodes it, and decoding
inverts encoding. -/
theorem issuedWordRunsNext : Obligations.IssuedWordRunsNext := by
  intro s i
  rw [withFetchWord_toNat (by decide), step_issue, decode_encode]

theorem step_of_idle {s : State} (h : s.host = []) : step s = .next s := by
  rw [step, stepWith, h]

/-- Settles O8: of the three kinds of step, the one without an action answers the state it found. -/
theorem idleBlockStays : Obligations.IdleBlockStays := fun _ => step_of_idle

/-- A hardware reset writes out as an update of the block's three changeable fields and of the record (R150,
R152). -/
theorem hardwareReset_eq (s : State) :
    hardwareReset s =
      { s with n := 0, mem := [], ovf := false, trace := s.trace ++ [.hardReset] } := rfl

/-- Settles O12: the step is the hardware reset of the state with its action taken (`step_of_hardReset`). -/
theorem hardwareResetEmptiesBlock : Obligations.HardwareResetEmptiesBlock := by
  intro s rest hhost
  rw [step_of_hardReset hhost, hardwareReset_eq, takeAction, hhost, List.tail_cons]

end Sys2Proof.Machine
